-- ==== Sys2Proof/Word.lean ====
section
/-! DEFINITION. The word types of larkworks-core (00_scope.md R8; 10_state.md: "All registers are 64 bits wide"). Their
widths are the parameters of Config.lean, which ties them to it. -/

namespace Sys2Proof

/-- A register or bank word: 64 bits (R5 `DPW`). -/
abbrev Word := BitVec 64

/-- One byte of the little-endian view of a bank word (R62). -/
abbrev Byte := BitVec 8

/-- A host byte address inside the block: 18 bits (R5 `AW`, R60). -/
abbrev Addr := BitVec 18

/-- The command word, bits 31:0 of CMD (R90). -/
abbrev CmdWord := BitVec 32

/-- The number of a coefficient bank, 0 to 3 (R27, R92: every value of a 2-bit field names a bank). -/
abbrev Bank := Fin 4

end Sys2Proof
end

