-- ==== Sys2Proof/Syntax.lean ====
section
/-! DEFINITION. The commands of larkworks-core, one constructor for each row of spec/opcode_table.json (30_encoding.md R93),
and the names of the error codes (60_exceptions.md R212). -/

namespace Sys2Proof

/-- The error codes of R212. Codes 0x09 to 0xFF are reserved and never reported, so they have no name here. -/
inductive ErrCode where
  /-- 0x00 NONE: no error logged since ERR was last cleared. -/
  | none
  /-- 0x01 ILLEGAL_OPC. -/
  | illegalOpc
  /-- 0x02 RESERVED_FIELD. -/
  | reservedField
  /-- 0x03 BAD_CFG. -/
  | badCfg
  /-- 0x04 NO_ROOT. -/
  | noRoot
  /-- 0x05 IDX_RANGE. -/
  | idxRange
  /-- 0x06 OPERAND_RANGE. -/
  | operandRange
  /-- 0x07 CMD_BUSY, a host event. -/
  | cmdBusy
  /-- 0x08 HOST_BUSY, a host event. -/
  | hostBusy
deriving DecidableEq, Repr

/-- A command (R93). `k` is the CFG field, `idx` the IDX immediate, `d`, `sa` and `sb` are bank numbers. The scalar operands
are always OPA, OPB and OPT (R92), so no constructor names them. -/
inductive Instr where
  /-- R110. -/
  | nop
  /-- R111. -/
  | modmul (k : Nat)
  /-- R112. -/
  | modred (k : Nat)
  /-- R113. -/
  | modadd (k : Nat)
  /-- R114. -/
  | modsub (k : Nat)
  /-- R170. -/
  | bflyct (k : Nat)
  /-- R171. -/
  | bflygs (k : Nat)
  /-- R154. -/
  | twrf (k idx : Nat)
  /-- R155. -/
  | twri (k idx : Nat)
  /-- R156. -/
  | dinv (k : Nat)
  /-- R190. -/
  | nttf (k : Nat) (d sa : Bank)
  /-- R192. -/
  | ntti (k : Nat) (d sa : Bank)
  /-- R140. -/
  | pwmul (k : Nat) (d sa sb : Bank)
deriving DecidableEq, Repr

end Sys2Proof
end

