-- ==== Sys2Proof/WellFormed.lean ====
section
/-! DEFINITION. Which commands the encoding of 30_encoding.md R91 can hold: CFG has 4 bits and IDX has 12. A bank number is
well formed by its type. A well-formed command may still name an absent entry or index: BAD_CFG and IDX_RANGE are errors of
its execution (R96), not of its form. -/

namespace Sys2Proof

/-- The CFG field, bits 19:16, holds `k` (R91). -/
def fitsCfg (k : Nat) : Bool := k < 16

/-- The IDX field, bits 31:20, holds `idx` (R91, R97). -/
def fitsIdx (idx : Nat) : Bool := idx < 4096

/-- The command fits its encoding. -/
def Instr.wf : Instr → Bool
  | .nop => true
  | .modmul k => fitsCfg k
  | .modred k => fitsCfg k
  | .modadd k => fitsCfg k
  | .modsub k => fitsCfg k
  | .bflyct k => fitsCfg k
  | .bflygs k => fitsCfg k
  | .twrf k idx => fitsCfg k && fitsIdx idx
  | .twri k idx => fitsCfg k && fitsIdx idx
  | .dinv k => fitsCfg k
  | .nttf k _ _ => fitsCfg k
  | .ntti k _ _ => fitsCfg k
  | .pwmul k _ _ _ => fitsCfg k

end Sys2Proof
end

