-- ==== Sys2Proof/Decode.lean ====
section
/-! DEFINITION. Decoding the accepted 64-bit command (30_encoding.md R90 to R99) and encoding a command into it. -/

namespace Sys2Proof

/-- OPC, bits 7:0 (R91). -/
def opcOf (w : CmdWord) : BitVec 8 := w.extractLsb' 0 8

/-- SA, bits 9:8 (R91). -/
def saOf (w : CmdWord) : Bank := (w.extractLsb' 8 2).toFin

/-- SB, bits 11:10 (R91). -/
def sbOf (w : CmdWord) : Bank := (w.extractLsb' 10 2).toFin

/-- D, bits 13:12 (R91). -/
def dOf (w : CmdWord) : Bank := (w.extractLsb' 12 2).toFin

/-- CFG, bits 19:16, unsigned (R91, R92). -/
def cfgOf (w : CmdWord) : Nat := (w.extractLsb' 16 4).toNat

/-- IDX, bits 31:20, zero-extended and unscaled (R91, R97). -/
def idxOf (w : CmdWord) : Nat := (w.extractLsb' 20 12).toNat

/-- The assigned operation codes (R95, R98). -/
def assignedOpcs : List (BitVec 8) :=
  [0x00, 0x01, 0x02, 0x03, 0x04, 0x05, 0x06, 0x07, 0x10, 0x11, 0x12]

/-- One row of the match and mask table of R94, and the command its words stand for. -/
structure Row where
  /-- The row's `match`. -/
  bits : CmdWord
  /-- The row's `mask`. -/
  mask : CmdWord
  /-- The command that a word of the row stands for. -/
  build : CmdWord → Instr

/-- `(w & mask) = match` (R94). -/
def Row.selects (r : Row) (w : CmdWord) : Bool := w &&& r.mask == r.bits

/-- The table of R94, in its order. -/
def rows : List Row :=
  [ ⟨0x00000000, 0xFFFFFFFF, fun _ => .nop⟩,
    ⟨0x00000001, 0xFFF0FFFF, fun w => .modmul (cfgOf w)⟩,
    ⟨0x00000002, 0xFFF0FFFF, fun w => .modred (cfgOf w)⟩,
    ⟨0x00000003, 0xFFF0FFFF, fun w => .modadd (cfgOf w)⟩,
    ⟨0x00000004, 0xFFF0FFFF, fun w => .modsub (cfgOf w)⟩,
    ⟨0x00000005, 0xFFF0FFFF, fun w => .bflyct (cfgOf w)⟩,
    ⟨0x00000006, 0xFFF0FFFF, fun w => .bflygs (cfgOf w)⟩,
    ⟨0x00000007, 0x0000FFFF, fun w => .twrf (cfgOf w) (idxOf w)⟩,
    ⟨0x00004007, 0x0000FFFF, fun w => .twri (cfgOf w) (idxOf w)⟩,
    ⟨0x00008007, 0xFFF0FFFF, fun w => .dinv (cfgOf w)⟩,
    ⟨0x00000010, 0xFFF0CCFF, fun w => .nttf (cfgOf w) (dOf w) (saOf w)⟩,
    ⟨0x00000011, 0xFFF0CCFF, fun w => .ntti (cfgOf w) (dOf w) (saOf w)⟩,
    ⟨0x00000012, 0xFFF0C0FF, fun w => .pwmul (cfgOf w) (dOf w) (saOf w) (sbOf w)⟩ ]

/-- Decode of R95: bits 63:32 first, then the operation code, then the rows of R94; an error by its name. -/
def decode (c : Word) : Except ErrCode Instr :=
  if c.extractLsb' 32 32 ≠ 0 then .error .reservedField
  else
    let w : CmdWord := c.extractLsb' 0 32
    if opcOf w ∉ assignedOpcs then .error .illegalOpc
    else
      match rows.find? (fun r => r.selects w) with
      | some r => .ok (r.build w)
      | none => .error .reservedField

/-- The layout of R91, most significant field first. -/
def layout (idx : BitVec 12) (cfg : BitVec 4) (sel d sb sa : BitVec 2) (opc : BitVec 8) : CmdWord :=
  idx ++ cfg ++ sel ++ d ++ sb ++ sa ++ opc

/-- The 64-bit command of a layout: bits 63:32 are 0 (R90). -/
def packFields (idx cfg sel : Nat) (d sb sa : Bank) (opc : BitVec 8) : Word :=
  0#32 ++ layout (BitVec.ofNat 12 idx) (BitVec.ofNat 4 cfg) (BitVec.ofNat 2 sel) (BitVec.ofFin d) (BitVec.ofFin sb)
    (BitVec.ofFin sa) opc

/-- The 64-bit value a host writes to CMD for a command (R93, R94). Unused fields are 0. -/
def encode : Instr → Word
  | .nop => packFields 0 0 0 0 0 0 0x00
  | .modmul k => packFields 0 k 0 0 0 0 0x01
  | .modred k => packFields 0 k 0 0 0 0 0x02
  | .modadd k => packFields 0 k 0 0 0 0 0x03
  | .modsub k => packFields 0 k 0 0 0 0 0x04
  | .bflyct k => packFields 0 k 0 0 0 0 0x05
  | .bflygs k => packFields 0 k 0 0 0 0 0x06
  | .twrf k idx => packFields idx k 0 0 0 0 0x07
  | .twri k idx => packFields idx k 1 0 0 0 0x07
  | .dinv k => packFields 0 k 2 0 0 0 0x07
  | .nttf k d sa => packFields 0 k 0 d 0 sa 0x10
  | .ntti k d sa => packFields 0 k 0 d 0 sa 0x11
  | .pwmul k d sa sb => packFields 0 k 0 d sb sa 0x12

/-- The command word of `nbits` bits whose value is `w`, as the 64-bit value written to CMD. Bits above `nbits` are 0. -/
def tableWord (nbits w : Nat) : Word := BitVec.ofNat 64 (w % 2 ^ nbits)

/-- What the decoder reads from a word of spec/opcode_table.json (R99: one 32-bit word for every command). -/
def decodeTableWord (nbits w : Nat) : Option Instr := (decode (tableWord nbits w)).toOption

/-- A bank operand in the assembler syntax of R100. -/
def Bank.asm (b : Bank) : String := "b" ++ toString b.val

/-- A configuration operand in the assembler syntax of R100. -/
def cfgAsm (k : Nat) : String := "c" ++ toString k

/-- The assembler line of a command (R100): mnemonic, then the operands, destination first. -/
def Instr.asm : Instr → String
  | .nop => "NOP"
  | .modmul k => "MODMUL " ++ cfgAsm k
  | .modred k => "MODRED " ++ cfgAsm k
  | .modadd k => "MODADD " ++ cfgAsm k
  | .modsub k => "MODSUB " ++ cfgAsm k
  | .bflyct k => "BFLYCT " ++ cfgAsm k
  | .bflygs k => "BFLYGS " ++ cfgAsm k
  | .twrf k idx => "TWRF " ++ cfgAsm k ++ ", #" ++ toString idx
  | .twri k idx => "TWRI " ++ cfgAsm k ++ ", #" ++ toString idx
  | .dinv k => "DINV " ++ cfgAsm k
  | .nttf k d sa => "NTTF " ++ cfgAsm k ++ ", " ++ Bank.asm d ++ ", " ++ Bank.asm sa
  | .ntti k d sa => "NTTI " ++ cfgAsm k ++ ", " ++ Bank.asm d ++ ", " ++ Bank.asm sa
  | .pwmul k d sa sb =>
    "PWMUL " ++ cfgAsm k ++ ", " ++ Bank.asm d ++ ", " ++ Bank.asm sa ++ ", " ++ Bank.asm sb

end Sys2Proof
end

