-- ==== Sys2Proof/Machine/State.lean ====
section
/-! DEFINITION. The state of larkworks-core (10_state.md R20 to R36), the host's pending turns (20_memory.md R72) and the
reasons a step can stop. -/

namespace Sys2Proof.Machine

/-- The defined bytes of the coefficient banks, by block byte address (R64, R62). An address that is not listed holds no
value: it belongs to an UNINIT word (R27). Canonical form: `Memory.wf` in Machine/Memory.lean. Assumption 5. -/
abbrev Memory := List Host.Cell

/-- The core phase (R33). -/
inductive Phase where
  /-- IDLE: waits for a CMD write. -/
  | idle
  /-- BUSY(c): runs the accepted 64-bit command `c`. -/
  | busy (c : Word)
deriving DecidableEq, Repr

/-- One host access (R60): `size` is its width in bytes. Assumption 13. -/
inductive HostOp where
  /-- MemRead(addr, size). -/
  | read (addr : Addr) (size : Nat)
  /-- MemWrite(addr, size, v). -/
  | write (addr : Addr) (size : Nat) (v : Word)
deriving DecidableEq, Repr

/-- Who makes the next transition (R72: every execution is an interleaving of host accesses and core steps). -/
inductive Turn where
  /-- The core takes its enabled step, if it has one. -/
  | core
  /-- The host performs one access. -/
  | host (op : HostOp)
  /-- Power-on reset, which can happen in any state (R240). -/
  | powerOn
deriving DecidableEq, Repr

/-- The bus response to a host access (R66): `data` is the read data, and `none` for a write. -/
structure Response where
  slverr : Bool
  data : Option Word
deriving DecidableEq, Repr

/-- Why a step could stop with a fault. It has NO constructor: "No behaviour of this block is treated as `stuck`"
(93_implementation_defined.md), errors are logged in STATUS and the block goes on (R210), and the modelling fault
UNINIT_READ is recorded in `State.uninitRead` while the command completes (R232). Nothing raises it. -/
inductive Fault where
deriving DecidableEq, Repr

/-- Why a step could have no meaning. -/
inductive Refusal where
  /-- Raised only by an arm of `exec` whose instruction has no meaning yet; no arm does. Safe: nothing can be proved of
  such a run. -/
  | notModelled (mnemonic : String)
deriving DecidableEq, Repr

/-- The state of the block, and with it what the model keeps of the host (`agenda`, `resp`) and of itself (`uninitRead`,
`free`). ID, CAP, the configuration registers and the ROM are constants (R20), STATUS.BUSY is `phase` (R33) and IRQ is a
function of the state (R34), so none of them is stored. -/
structure State where
  /-- CTRL.DONE_IE, bit 1 (R23). -/
  doneIe : Bool
  /-- CTRL.ERR_IE, bit 2 (R23). -/
  errIe : Bool
  /-- STATUS.DONE, bit 1 (R24). -/
  done : Bool
  /-- STATUS.ERR, bit 2 (R24). -/
  err : Bool
  /-- STATUS.ERR_MULTI, bit 3 (R24). -/
  errMulti : Bool
  /-- STATUS.ERR_CODE, bits 15:8 (R24, R212). -/
  errCode : ErrCode
  /-- CMD (R25). -/
  cmd : Word
  /-- OPA (R26). -/
  opa : Word
  /-- OPB (R26). -/
  opb : Word
  /-- OPT (R26). -/
  opt : Word
  /-- RES0 (R29). -/
  res0 : Word
  /-- RES1 (R29). -/
  res1 : Word
  /-- The coefficient banks (R27). -/
  mem : Memory
  /-- The core phase (R33). -/
  phase : Phase
  /-- The modelling fault UNINIT_READ has been recorded; it is never cleared (R232). Assumption 2. -/
  uninitRead : Bool
  /-- MODEL'S OWN: how many free values have been used. Assumption 1. -/
  free : Nat
  /-- MODEL'S OWN: the transitions still to come, first one first; any interleaving is some list. Assumption 4. -/
  agenda : List Turn
  /-- MODEL'S OWN: the response to the last host access. Assumption 7. -/
  resp : Option Response
deriving DecidableEq, Repr

/-- The state after power-on reset (R36). -/
def State.reset : State :=
  { doneIe := false, errIe := false, done := false, err := false, errMulti := false, errCode := .none
    cmd := 0, opa := 0, opb := 0, opt := 0, res0 := 0, res1 := 0, mem := [], phase := .idle
    uninitRead := false, free := 0, agenda := [], resp := none }

end Sys2Proof.Machine
end

