-- ==== Sys2Proof/Machine/Flags.lean ====
section
/-! DEFINITION. The status flags, the error log and the words of STATUS and CTRL (10_state.md R23, R24, R34, R35;
60_exceptions.md R212, R218, R221). No command sets a flag from its value (R35). -/

namespace Sys2Proof

/-- The value of ERR_CODE for an error (R212). -/
def ErrCode.code : ErrCode → Nat
  | .none => 0x00
  | .illegalOpc => 0x01
  | .reservedField => 0x02
  | .badCfg => 0x03
  | .noRoot => 0x04
  | .idxRange => 0x05
  | .operandRange => 0x06
  | .cmdBusy => 0x07
  | .hostBusy => 0x08

namespace Machine

/-- STATUS.BUSY: the core phase as the host sees it (R24, R33). -/
def State.busy (s : State) : Bool :=
  match s.phase with
  | .idle => false
  | .busy _ => true

/-- The 64-bit value of STATUS (R24). Bits 7:4 and 63:16 are 0. -/
def State.statusWord (s : State) : Word :=
  BitVec.ofNat 64 (s.busy.toNat + 2 * s.done.toNat + 4 * s.err.toNat + 8 * s.errMulti.toNat + 256 * s.errCode.code)

/-- The 64-bit value CTRL reads as (R23): SOFT_RESET and bits 63:3 read 0. -/
def State.ctrlWord (s : State) : Word := BitVec.ofNat 64 (2 * s.doneIe.toNat + 4 * s.errIe.toNat)

/-- The IRQ output (R34). -/
def State.irq (s : State) : Bool := (s.done && s.doneIe) || (s.err && s.errIe)

/-- `log(e)` (R218): the first code is kept, a later error sets ERR_MULTI. -/
def State.logErr (s : State) (e : ErrCode) : State :=
  if s.err then { s with errMulti := true } else { s with err := true, errCode := e }

/-- Write 1 to STATUS bit 1: clear DONE (R24). -/
def State.ackDone (s : State) : State := { s with done := false }

/-- Write 1 to STATUS bit 2: clear ERR, ERR_MULTI and ERR_CODE together (R24, R223). -/
def State.ackErr (s : State) : State := { s with err := false, errMulti := false, errCode := .none }

end Machine

end Sys2Proof
end

