-- ==== Sys2Proof/Config.lean ====
section
/-! DEFINITION. What the instance fixes (00_scope.md R5, R6) and the free values, which nothing constrains. The values of
the configuration table stand in Machine/CfgTable.lean. -/

namespace Sys2Proof

/-- One row of the configuration table (R6). `psi` and `dinv` are 0 where `nttOk` is false: such an entry has no root and
no 1/DIM constant (R30, R31). -/
structure Entry where
  /-- `Q_k`, the prime modulus. -/
  q : Nat
  /-- `EW_k`, the primitive element width in bits. -/
  ew : Nat
  /-- `LOG2DIM_k`. -/
  log2dim : Nat
  /-- `LAZY_k`: stored values up to `2^EW_k` are accepted (R11). -/
  lazy : Bool
  /-- `NTT_OK_k`: `Q_k` admits a primitive `2*DIM_k`-th root of unity. -/
  nttOk : Bool
  /-- `PSI_k`, the chosen primitive `2*DIM_k`-th root of unity. -/
  psi : Nat
  /-- `DINV_k`, the inverse of `DIM_k` modulo `Q_k`. -/
  dinv : Nat
deriving DecidableEq, Repr

namespace Config

/-- `NCFG`, the number of configuration entries (R5). -/
abbrev ncfg : Nat := 4

/-- `NBANK`, the number of coefficient banks (R5). -/
abbrev nbank : Nat := 4

/-- `DIM_MAX`, the words of one bank (R5). -/
abbrev dimMax : Nat := 512

/-- `DPW`, the datapath width in bits (R5). -/
abbrev dpw : Nat := 64

/-- `PPW`, the product width in bits (R5). -/
abbrev ppw : Nat := 128

/-- `AW`, the host byte-address width in bits (R5, R60). -/
abbrev aw : Nat := 18

/-! The types of Word.lean stand at these values as literals, so that no width varies in a type. The package does not
compile where one of them differs from its parameter. -/

/-- A register or bank word has `DPW` bits. -/
theorem word_width : Word = BitVec dpw := rfl

/-- A host address has `AW` bits. -/
theorem addr_width : Addr = BitVec aw := rfl

/-- A bank number is one of `NBANK`. -/
theorem bank_count : Bank = Fin nbank := rfl

/-- `PPW = 2*DPW` (R5). -/
theorem ppw_eq : ppw = 2 * dpw := rfl

/-- A FREE VALUE: the n-th 64-bit value the spec leaves unspecified: the data of a host read of a bank word that is UNINIT
or read while BUSY (93 U1, U2), and a word of bank D after UNINIT_READ (93 U3). No body, so no proof can see it.
Assumption 1. -/
opaque freeWord : Nat → Word

/-- A FREE VALUE: whether a command that consumed an UNINIT word logs OPERAND_RANGE (R232: "it may or may not").
Assumption 1. -/
opaque freeFlag : Nat → Bool

/-- OPEN parameter: which `2^AW`-aligned slot of the system map holds the block (R63 `BASE`, 92 D11). Assumption 9. -/
opaque baseSlot : Nat

end Config

end Sys2Proof
end

