-- ==== Sys2Proof/Machine/CfgTable.lean ====
section
/-! DEFINITION. The built-in configuration table (10_state.md R30) and the twiddle ROM it determines (42_twiddle_rom.md
R150, R151). -/

namespace Sys2Proof

/-- Entry 0: 3329/256, without a root (R30, 90_conflicts.md C1). -/
def entry0 : Entry :=
  { q := 3329, ew := 16, log2dim := 8, lazy := false, nttOk := false, psi := 0, dinv := 0 }

/-- Entry 1: 12289/512 (R30). -/
def entry1 : Entry :=
  { q := 12289, ew := 16, log2dim := 9, lazy := false, nttOk := true, psi := 10302, dinv := 12265 }

/-- Entry 2: 8380417/256 (R30). -/
def entry2 : Entry :=
  { q := 8380417, ew := 32, log2dim := 8, lazy := false, nttOk := true, psi := 1921994, dinv := 8347681 }

/-- Entry 3: the Goldilocks-like prime/512, lazy (R30). -/
def entry3 : Entry :=
  { q := 0xFFFFFFFF00000001, ew := 64, log2dim := 9, lazy := true, nttOk := true
    psi := 0x9D8F2AD78BFED972, dinv := 0xFF7FFFFF00800001 }

/-- The configuration table (R30). -/
def entries : List Entry := [entry0, entry1, entry2, entry3]

/-- `cfg(k)` (R10): the entry of a legal number, none for `k >= NCFG`. -/
def entry? (k : Nat) : Option Entry := entries[k]?

/-- `DIM_k = 2^LOG2DIM_k` (R6). -/
def Entry.dim (e : Entry) : Nat := 2 ^ e.log2dim

/-- `inv_q(psi)` (R9, R150). Since `psi^n` is -1 (R151), the power `2n - 1` of `psi` is its inverse. DEDUCED,
assumption 11. -/
def Entry.psiInv (e : Entry) : Nat := e.psi ^ (2 * e.dim - 1) % e.q

/-- `ROMF_k[i] = psi^i mod q` (R150). -/
def Entry.romf (e : Entry) (i : Nat) : Nat := e.psi ^ i % e.q

/-- `ROMI_k[i] = inv_q(psi)^i mod q` (R150). -/
def Entry.romi (e : Entry) (i : Nat) : Nat := e.psiInv ^ i % e.q

/-- CFGk_INFO (R31): EW in bits 7:0, LOG2DIM in 11:8, NTT_OK in bit 16, LAZY in bit 17, all other bits 0. -/
def Entry.info (e : Entry) : Nat :=
  e.ew + 2 ^ 8 * e.log2dim + 2 ^ 16 * e.nttOk.toNat + 2 ^ 17 * e.lazy.toNat

end Sys2Proof
end

