-- ==== Sys2Proof/Machine/Memory.lean ====
section
/-! DEFINITION. The coefficient banks as one sparse byte memory: reading, storing and making UNINIT (10_state.md R27,
20_memory.md R62, R64). Two operations change it, `store` and `clear`; everything else is written over them. -/

namespace Sys2Proof.Machine

/-- The first byte address of the bank windows (R63). -/
def bankBase : Nat := 0x10000

/-- The spacing of the bank windows in bytes (R64). -/
def bankSpan : Nat := 0x8000

/-- The byte address of word `i` of bank `b` (R64). -/
def bankAddr (b : Bank) (i : Nat) : Nat := bankBase + bankSpan * b.val + 8 * i

/-- Byte `j` of a word in the little-endian view: bits `8*j+7 : 8*j` (R62). -/
def byteOf (v : Word) (j : Nat) : Byte := v.extractLsb' (8 * j) 8

/-- The eight bytes of a word, lowest address first (R62). -/
def bytesOf (v : Word) : List Byte := (List.range 8).map (byteOf v)

/-- The word that a little-endian list of bytes spells (R62). -/
def wordOfBytes : List Byte → Nat
  | [] => 0
  | b :: bs => b.toNat + 256 * wordOfBytes bs

/-- Addresses strictly rise along the list, all of them at least `lo`. -/
def Memory.rising (lo : Nat) : Memory → Bool
  | [] => true
  | (a, _) :: m => decide (lo ≤ a) && Memory.rising (a + 1) m

/-- The canonical form: addresses strictly rising. No entry can equal what an unlisted address reads as, because an
unlisted address holds no value. -/
def Memory.wf (m : Memory) : Bool := Memory.rising 0 m

/-- The byte at an address, none where it holds no value. -/
def Memory.readByte : Memory → Nat → Option Byte
  | [], _ => none
  | (a, b) :: m, x => if x = a then some b else Memory.readByte m x

/-- Consecutive cells from an address. -/
def cellsAt (a : Nat) : List Byte → Memory
  | [] => []
  | b :: bs => (a, b) :: cellsAt (a + 1) bs

/-- Store consecutive bytes from address `a`. -/
def Memory.store (m : Memory) (a : Nat) (bs : List Byte) : Memory :=
  m.filter (fun c => c.1 < a) ++ cellsAt a bs ++ m.filter (fun c => a + bs.length ≤ c.1)

/-- Make the `len` bytes from address `a` hold no value. -/
def Memory.clear (m : Memory) (a len : Nat) : Memory :=
  m.filter (fun c => c.1 < a || a + len ≤ c.1)

/-- All of a list's values, none if one is missing. -/
def allSome {α : Type} : List (Option α) → Option (List α)
  | [] => some []
  | none :: _ => none
  | some x :: xs => (allSome xs).map (x :: ·)

/-- The 64-bit word at an address, none where it is UNINIT (R64). -/
def Memory.readWord (m : Memory) (a : Nat) : Option Word :=
  (allSome ((List.range 8).map (fun j => m.readByte (a + j)))).map (fun bs => BitVec.ofNat 64 (wordOfBytes bs))

/-- Write consecutive words from address `a`, each little-endian (R62, R64). -/
def Memory.writeWords (m : Memory) (a : Nat) (vs : List Word) : Memory :=
  m.store a (vs.flatMap bytesOf)

/-- `bank[b][i]`, none where the word is UNINIT (R10, R27). -/
def Memory.bankWord (m : Memory) (b : Bank) (i : Nat) : Option Word := m.readWord (bankAddr b i)

/-- `bank[b][i] <- v` (R10, R64). -/
def Memory.setBankWord (m : Memory) (b : Bank) (i : Nat) (v : Word) : Memory :=
  m.writeWords (bankAddr b i) [v]

/-- Write words `0 ..` of bank `b`. -/
def Memory.setBank (m : Memory) (b : Bank) (vs : List Word) : Memory := m.writeWords (bankAddr b 0) vs

/-- Words `0 .. n-1` of bank `b` become UNINIT (R217, R241). -/
def Memory.uninitBank (m : Memory) (b : Bank) (n : Nat) : Memory := m.clear (bankAddr b 0) (8 * n)

end Sys2Proof.Machine
end

