-- ==== Sys2Proof/Machine/Operands.lean ====
section
/-! DEFINITION. The operands of a command: the checks before it (30_encoding.md R96), the canonicalisation of each field
element it consumes (00_scope.md R11) and the arithmetic of the datapath (R15, R16, R18; 40_modular.md R113, R114). Every
value between operand and result is an exact natural number or integer. -/

namespace Sys2Proof

/-- The bit reversal `brv_L(x)` of R9: bit `i` of `x` becomes bit `L-1-i`. -/
def brv : Nat → Nat → Nat
  | 0, _ => 0
  | l + 1, x => (x % 2) * 2 ^ l + brv l (x / 2)

/-- `reduce_k(P) = P mod Q_k` (R16). -/
def Entry.reduce (e : Entry) (p : Nat) : Nat := p % e.q

/-- The conditional subtract of R113: `(s >= q) ? s - q : s`. -/
def Entry.condSub (e : Entry) (s : Nat) : Nat := if e.q ≤ s then s - e.q else s

/-- The conditional add of R114: `(d < 0) ? d + q : d`. -/
def Entry.condAdd (e : Entry) (d : Int) : Nat := (if d < 0 then d + e.q else d).toNat

/-- `(u + v) mod q` (R170, R171, R190, R192). -/
def Entry.addMod (e : Entry) (u v : Nat) : Nat := (u + v) % e.q

/-- `(u - v) mod q`, the mathematical difference reduced with the floored `mod` of R9 (R18). -/
def Entry.subMod (e : Entry) (u v : Nat) : Nat := (((u : Int) - (v : Int)) % (e.q : Int)).toNat

/-- A result zero-extended to 64 bits (R17). -/
def zext64 (v : Nat) : Word := BitVec.ofNat 64 v

/-- `canon_k(x)` (R11). -/
def Entry.canon (e : Entry) (x : Word) : Except ErrCode Nat :=
  if e.lazy = false then
    if e.q ≤ x.toNat then .error .operandRange else .ok x.toNat
  else
    if 2 ^ e.ew ≤ x.toNat then .error .operandRange
    else .ok (if e.q ≤ x.toNat then x.toNat - e.q else x.toNat)

/-- A product-width value (R5 `PPW`): the concatenation `{hi, lo}` of two words. -/
def productOf (hi lo : Word) : BitVec Config.ppw := hi ++ lo

/-- The product-width value of MODRED (R112): the 128-bit `P = (OPB, OPA)`, in range below `2^(2*EW_k)`. -/
def Entry.product (e : Entry) (hi lo : Word) : Except ErrCode Nat :=
  let p := (productOf hi lo).toNat
  if 2 ^ (2 * e.ew) ≤ p then .error .operandRange else .ok p

/-- Precheck (R96): the entry exists; it has a root where `needsRoot`; the index, where there is one, is below `DIM_k`. -/
def precheck (needsRoot : Bool) (idx : Option Nat) (k : Nat) : Except ErrCode Entry :=
  match entry? k with
  | none => .error .badCfg
  | some e =>
    if needsRoot && !e.nttOk then .error .noRoot
    else
      match idx with
      | none => .ok e
      | some i => if e.dim ≤ i then .error .idxRange else .ok e

namespace Machine

/-- Why a vector command finds no value in a source word. -/
inductive LaneStop where
  /-- The word fails canon_k: OPERAND_RANGE (R11). -/
  | range
  /-- The word is UNINIT: the modelling fault UNINIT_READ (R232). -/
  | uninit
deriving DecidableEq, Repr

/-- `canon(bank[b][i])` (R140, R190, R192). -/
def lane (e : Entry) (m : Memory) (b : Bank) (i : Nat) : Except LaneStop Nat :=
  match m.bankWord b i with
  | none => .error .uninit
  | some w =>
    match e.canon w with
    | .error _ => .error .range
    | .ok v => .ok v

/-- Canonical values of words `i .. i+n-1` of a source bank, read in the order of the pseudocode, which ends at the first
word without one (R12, R190, R192). DEDUCED, assumption 3. -/
def lanesFrom (e : Entry) (m : Memory) (b : Bank) : (n i : Nat) → Except LaneStop (List Nat)
  | 0, _ => .ok []
  | n + 1, i =>
    match lane e m b i with
    | .error x => .error x
    | .ok v =>
      match lanesFrom e m b n (i + 1) with
      | .error x => .error x
      | .ok vs => .ok (v :: vs)

/-- The source vector of NTTF and NTTI: words `0 .. DIM_k - 1` (R190, R192). -/
def lanes (e : Entry) (m : Memory) (b : Bank) : Except LaneStop (List Nat) := lanesFrom e m b e.dim 0

/-- The two source vectors of PWMUL, read lane by lane: `a_i`, then `b_i` (R140). DEDUCED, assumption 3. -/
def lanePairsFrom (e : Entry) (m : Memory) (sa sb : Bank) : (n i : Nat) → Except LaneStop (List (Nat × Nat))
  | 0, _ => .ok []
  | n + 1, i =>
    match lane e m sa i with
    | .error x => .error x
    | .ok a =>
      match lane e m sb i with
      | .error x => .error x
      | .ok b =>
        match lanePairsFrom e m sa sb n (i + 1) with
        | .error x => .error x
        | .ok ps => .ok ((a, b) :: ps)

/-- The source pairs of PWMUL: words `0 .. DIM_k - 1` of both banks (R140). -/
def lanePairs (e : Entry) (m : Memory) (sa sb : Bank) : Except LaneStop (List (Nat × Nat)) :=
  lanePairsFrom e m sa sb e.dim 0

end Machine

end Sys2Proof
end

