-- ==== Sys2Proof/Machine/Ops.lean ====
section
/-! DEFINITION. The transitions every command shares: acceptance and completion (60_exceptions.md R215, R216), the effects
of an error (R217), the modelling fault (R232) and both resets (70_reset_and_hazards.md R240, R241). Reading an error back
and acknowledging it is the W1C write of Machine/Flags.lean (R223). -/

namespace Sys2Proof.Machine

/-- Acceptance of the command `v` (R215). No check happens here. -/
def State.accept (s : State) (v : Word) : State := { s with cmd := v, done := false, phase := .busy v }

/-- The end of every completion (R216): BUSY cleared, DONE set, phase IDLE. -/
def State.finish (s : State) : State := { s with done := true, phase := .idle }

/-- Taking an error of a command (R216, R217, R222): the code is logged, nothing else is written, and the command
completes. -/
def State.raiseErr (s : State) (e : ErrCode) : State := (s.logErr e).finish

/-- Completion of a scalar command: its writes all at once, or the effects of its error (R216, R217). -/
def completeScalar (s : State) : Except ErrCode State → Host.Outcome State Fault Refusal
  | .ok t => .next t.finish
  | .error e => .next (s.raiseErr e)

/-- The writes of a command that gives RES0 alone (R29). -/
def State.setRes0 (s : State) (v : Nat) : State := { s with res0 := zext64 v }

/-- The writes of a butterfly command (R29, R170, R171). -/
def State.setRes (s : State) (v w : Nat) : State := { s with res0 := zext64 v, res1 := zext64 w }

/-- Consecutive free words. -/
def freeWords (start n : Nat) : List Word := (List.range n).map (fun i => Config.freeWord (start + i))

/-- Completion of a vector command that consumed an UNINIT word (R232, 93 U3): the fault is recorded, words
`0 .. n-1` of bank D hold free values, and OPERAND_RANGE may or may not be logged. Assumptions 1, 2, 16. -/
def State.uninitOutcome (s : State) (d : Bank) (n : Nat) : State :=
  let t : State :=
    { s with uninitRead := true, free := s.free + n + 1, mem := s.mem.setBank d (freeWords (s.free + 1) n) }
  if Config.freeFlag s.free then t.raiseErr .operandRange else t.finish

/-- OPERAND_RANGE of a vector command (R217): words `0 .. n-1` of bank D become UNINIT. -/
def State.rangeOutcome (s : State) (d : Bank) (n : Nat) : State :=
  State.raiseErr { s with mem := s.mem.uninitBank d n } .operandRange

/-- Completion of a vector command with its destination vector, or with what its source words lack (R216, R217, R232). -/
def completeVector (s : State) (e : Entry) (d : Bank) : Except LaneStop (List Nat) → Host.Outcome State Fault Refusal
  | .ok vs => .next (State.finish { s with mem := s.mem.setBank d (vs.map zext64) })
  | .error .range => .next (s.rangeOutcome d e.dim)
  | .error .uninit => .next (s.uninitOutcome d e.dim)

/-- Power-on reset (R240): every piece of hardware state takes its value of R36. What belongs to the host or to the model
stays: the agenda, the count of free values and the recorded fault, which is never cleared (R232). Assumptions 2, 7. -/
def State.powerOn (s : State) : State :=
  { State.reset with uninitRead := s.uninitRead, free := s.free, agenda := s.agenda }

/-- The CFG number and the destination bank of a vector command (R140, R190, R192); no other command has one. -/
def vectorDest : Instr → Option (Nat × Bank)
  | .nop => none
  | .modmul _ => none
  | .modred _ => none
  | .modadd _ => none
  | .modsub _ => none
  | .bflyct _ => none
  | .bflygs _ => none
  | .twrf _ _ => none
  | .twri _ _ => none
  | .dinv _ => none
  | .nttf k d _ => some (k, d)
  | .ntti k d _ => some (k, d)
  | .pwmul k d _ _ => some (k, d)

/-- The destination that an abort of the command `c` leaves UNINIT (R241): the bank and the number of words, where `c`
decodes to NTTF, NTTI or PWMUL with an entry `k < NCFG`. -/
def abortDest (c : Word) : Option (Bank × Nat) :=
  match decode c with
  | .error _ => none
  | .ok i =>
    match vectorDest i with
    | none => none
    | some (k, d) =>
      match entry? k with
      | none => none
      | some e => some (d, e.dim)

/-- The banks after the running command is aborted (R241). -/
def State.abortMem (s : State) : Memory :=
  match s.phase with
  | .idle => s.mem
  | .busy c =>
    match abortDest c with
    | none => s.mem
    | some (d, n) => s.mem.uninitBank d n

/-- Soft reset (R241), but for the enables, which `writeCtrl` stores from the same write. -/
def State.softReset (s : State) : State :=
  { s with
    mem := s.abortMem
    done := false, err := false, errMulti := false, errCode := .none
    cmd := 0, opa := 0, opb := 0, opt := 0, res0 := 0, res1 := 0
    phase := .idle }

/-- A write to CTRL (R23, R241): bit 0 performs the soft reset, bits 2:1 are stored. -/
def State.writeCtrl (s : State) (v : Word) : State :=
  let t := if v.getLsbD 0 then s.softReset else s
  { t with doneIe := v.getLsbD 1, errIe := v.getLsbD 2 }

/-- A write to STATUS (R24): only bits 1 and 2 of the data have an effect. -/
def State.writeStatus (s : State) (v : Word) : State :=
  let t := if v.getLsbD 1 then s.ackDone else s
  if v.getLsbD 2 then t.ackErr else t

end Sys2Proof.Machine
end

