-- ==== Sys2Proof/Machine/Bus.lean ====
section
/-! DEFINITION. The host bus (20_memory.md R60 to R78): which register, configuration register or bank word an address
names, and what a read or a write of it does. -/

namespace Sys2Proof.Machine

/-- What an aligned block address names (R63). -/
inductive Target where
  | id
  | cap
  | ctrl
  | status
  | cmd
  | opa
  | opb
  | opt
  | res0
  | res1
  /-- CFGk_Q (R31). -/
  | cfgQ (e : Entry)
  /-- CFGk_INFO (R31). -/
  | cfgInfo (e : Entry)
  /-- CFGk_PSI (R31). -/
  | cfgPsi (e : Entry)
  /-- CFGk_DINV (R31). -/
  | cfgDinv (e : Entry)
  /-- Word `i` of bank `b` (R64). -/
  | bank (b : Bank) (i : Nat)
  /-- A reserved range, an entry `k >= NCFG` or a word `i >= DIM_MAX` (R63 to R65). -/
  | reserved
deriving DecidableEq, Repr

/-- The register at an offset below 0x100 (R63). -/
def registerAt (a : Nat) : Target :=
  if a = 0x00 then .id
  else if a = 0x08 then .cap
  else if a = 0x10 then .ctrl
  else if a = 0x18 then .status
  else if a = 0x20 then .cmd
  else if a = 0x28 then .opa
  else if a = 0x30 then .opb
  else if a = 0x38 then .opt
  else if a = 0x40 then .res0
  else if a = 0x48 then .res1
  else .reserved

/-- The register of an entry at its offset 0x00, 0x08, 0x10 or 0x18 (R31). -/
def cfgRegisterAt (e : Entry) (o : Nat) : Target :=
  if o = 0x00 then .cfgQ e
  else if o = 0x08 then .cfgInfo e
  else if o = 0x10 then .cfgPsi e
  else if o = 0x18 then .cfgDinv e
  else .reserved

/-- The configuration register at an offset into the window 0x100 to 0x2FF (R65). -/
def configAt (a : Nat) : Target :=
  match entry? (a / 0x20) with
  | none => .reserved
  | some e => cfgRegisterAt e (a % 0x20)

/-- The bank word at an offset into the bank windows (R64). -/
def bankWordAt (a : Nat) : Target :=
  if a % bankSpan / 8 < Config.dimMax then .bank (Fin.ofNat Config.nbank (a / bankSpan)) (a % bankSpan / 8) else .reserved

/-- The address map (R63), for an address that is a multiple of 8. -/
def target (addr : Addr) : Target :=
  let a := addr.toNat
  if a < 0x100 then registerAt a
  else if a < 0x300 then configAt (a - 0x100)
  else if a < bankBase then .reserved
  else if a < bankBase + Config.nbank * bankSpan then bankWordAt (a - bankBase)
  else .reserved

/-- The only admitted form of an access: 64 bits wide at a multiple of 8 (R61). -/
def admitted (addr : Addr) (size : Nat) : Bool := size == 8 && addr.toNat % 8 == 0

/-- The constant value of ID (R21). -/
def idWord : Word := 0x4C41524B00070001

/-- The constant value of CAP (R22): NCFG, NBANK, DIM_MAX and DPW in their fields. -/
def capWord : Word :=
  BitVec.ofNat 64 (Config.ncfg + 2 ^ 8 * Config.nbank + 2 ^ 16 * Config.dimMax + 2 ^ 32 * Config.dpw)

/-- OK with read data. -/
def State.answer (s : State) (v : Word) : State := { s with resp := some ⟨false, some v⟩ }

/-- OK with an unspecified value (R27, R64, R70; 93 U1, U2). Assumption 1. -/
def State.answerFree (s : State) : State :=
  { s with resp := some ⟨false, some (Config.freeWord s.free)⟩, free := s.free + 1 }

/-- SLVERR on a read: data 0, no effect (R66). -/
def State.readError (s : State) : State := { s with resp := some ⟨true, some 0⟩ }

/-- SLVERR on a write: no effect (R66). -/
def State.writeError (s : State) : State := { s with resp := some ⟨true, none⟩ }

/-- OK to a write. -/
def State.writeOk (s : State) : State := { s with resp := some ⟨false, none⟩ }

/-- A read of a bank word (R64, R70). -/
def State.readBank (s : State) (b : Bank) (i : Nat) : State :=
  if s.busy then s.answerFree
  else
    match s.mem.bankWord b i with
    | some v => s.answer v
    | none => s.answerFree

/-- A host read (R60 to R68, R70). -/
def State.hostRead (s : State) (addr : Addr) (size : Nat) : State :=
  if admitted addr size then
    match target addr with
    | .id => s.answer idWord
    | .cap => s.answer capWord
    | .ctrl => s.answer s.ctrlWord
    | .status => s.answer s.statusWord
    | .cmd => s.answer s.cmd
    | .opa => s.answer s.opa
    | .opb => s.answer s.opb
    | .opt => s.answer s.opt
    | .res0 => s.answer s.res0
    | .res1 => s.answer s.res1
    | .cfgQ e => s.answer (zext64 e.q)
    | .cfgInfo e => s.answer (zext64 e.info)
    | .cfgPsi e => s.answer (zext64 e.psi)
    | .cfgDinv e => s.answer (zext64 e.dinv)
    | .bank b i => s.readBank b i
    | .reserved => s.readError
  else s.readError

/-- A write of an operand register or bank word: dropped with HOST_BUSY while BUSY (R71, R220). -/
def State.writeOperand (s : State) (written : State) : State :=
  if s.busy then s.logErr .hostBusy else written

/-- A write of CMD: acceptance while IDLE (R215), dropped with CMD_BUSY while BUSY (R219). -/
def State.writeCmd (s : State) (v : Word) : State := if s.busy then s.logErr .cmdBusy else s.accept v

/-- A host write (R60 to R68, R71). -/
def State.hostWrite (s : State) (addr : Addr) (size : Nat) (v : Word) : State :=
  if admitted addr size then
    match target addr with
    | .id => s.writeError
    | .cap => s.writeError
    | .ctrl => (s.writeCtrl v).writeOk
    | .status => (s.writeStatus v).writeOk
    | .cmd => (s.writeCmd v).writeOk
    | .opa => (s.writeOperand { s with opa := v }).writeOk
    | .opb => (s.writeOperand { s with opb := v }).writeOk
    | .opt => (s.writeOperand { s with opt := v }).writeOk
    | .res0 => s.writeError
    | .res1 => s.writeError
    | .cfgQ _ => s.writeError
    | .cfgInfo _ => s.writeError
    | .cfgPsi _ => s.writeError
    | .cfgDinv _ => s.writeError
    | .bank b i => (s.writeOperand { s with mem := s.mem.setBankWord b i v }).writeOk
    | .reserved => s.writeError
  else s.writeError

/-- One host access, one atomic transition (R68, R72). -/
def State.hostStep (s : State) : HostOp → State
  | .read addr size => s.hostRead addr size
  | .write addr size v => s.hostWrite addr size v

/-- The system address of the block's offset 0 (R63 `BASE`), aligned to `2^AW`. Assumption 9. -/
def base : Nat := Config.baseSlot * 2 ^ Config.aw

/-- The block address that a system address selects, none where it lies outside the block (R63). Assumption 9. -/
def blockAddr (sys : Nat) : Option Addr :=
  if base ≤ sys && sys < base + 2 ^ Config.aw then some (BitVec.ofNat Config.aw (sys - base)) else none

end Sys2Proof.Machine
end

