-- ==== Sys2Proof/Machine/Butterfly.lean ====
section
/-! DEFINITION. The single butterflies on OPA (u), OPB (v) and OPT (t) (43_butterfly.md R170, R171). -/

namespace Sys2Proof.Machine

/-- BFLYCT (R170): `(u + t*v, u - t*v) mod q`. -/
def execBflyct (k : Nat) (s : State) : Host.Outcome State Fault Refusal :=
  completeScalar s do
    let e ← precheck false none k
    let u ← e.canon s.opa
    let v ← e.canon s.opb
    let t ← e.canon s.opt
    let w := e.reduce (t * v)
    return s.setRes (e.addMod u w) (e.subMod u w)

/-- BFLYGS (R171): `(u + v, (u - v)*t) mod q`. -/
def execBflygs (k : Nat) (s : State) : Host.Outcome State Fault Refusal :=
  completeScalar s do
    let e ← precheck false none k
    let u ← e.canon s.opa
    let v ← e.canon s.opb
    let t ← e.canon s.opt
    return s.setRes (e.addMod u v) (e.reduce (e.subMod u v * t))

end Sys2Proof.Machine
end

