-- ==== Sys2Proof/Machine/Modular.lean ====
section
/-! DEFINITION. NOP and the scalar commands of the modular multiplier, the reduction unit and the modular adder and
subtractor (40_modular.md R110 to R115). -/

namespace Sys2Proof.Machine

/-- NOP (R110): completion only. -/
def execNop (s : State) : Host.Outcome State Fault Refusal := completeScalar s (.ok s)

/-- MODMUL (R111): `RES0 <- OPA*OPB mod q`. -/
def execModmul (k : Nat) (s : State) : Host.Outcome State Fault Refusal :=
  completeScalar s do
    let e ← precheck false none k
    let a ← e.canon s.opa
    let b ← e.canon s.opb
    return s.setRes0 (e.reduce (a * b))

/-- MODRED (R112): `RES0 <- (OPB, OPA) mod q`; no canon is applied. -/
def execModred (k : Nat) (s : State) : Host.Outcome State Fault Refusal :=
  completeScalar s do
    let e ← precheck false none k
    let p ← e.product s.opb s.opa
    return s.setRes0 (e.reduce p)

/-- MODADD (R113): the exact sum, then the conditional subtract. -/
def execModadd (k : Nat) (s : State) : Host.Outcome State Fault Refusal :=
  completeScalar s do
    let e ← precheck false none k
    let a ← e.canon s.opa
    let b ← e.canon s.opb
    return s.setRes0 (e.condSub (a + b))

/-- MODSUB (R114): the exact difference, then the conditional add. -/
def execModsub (k : Nat) (s : State) : Host.Outcome State Fault Refusal :=
  completeScalar s do
    let e ← precheck false none k
    let a ← e.canon s.opa
    let b ← e.canon s.opb
    return s.setRes0 (e.condAdd ((a : Int) - (b : Int)))

end Sys2Proof.Machine
end

