-- ==== Sys2Proof/Machine/Ntt.lean ====
section
/-! DEFINITION. The forward and inverse NTT (44_ntt.md R190 to R195): the loops of the pseudocode over the internal array
`a`, in its order, and the two commands. -/

namespace Sys2Proof.Machine

/-- `a[j]` of the internal array. -/
def nth (a : List Nat) (j : Nat) : Nat := a.getD j 0

/-- The body of R190's inner loop: the CT butterfly on `a[j]` and `a[j + t]` with the stage twiddle `S`. -/
def ctStep (e : Entry) (t S : Nat) (a : List Nat) (j : Nat) : List Nat :=
  let U := nth a j
  let V := e.reduce (nth a (j + t) * S)
  (a.set j (e.addMod U V)).set (j + t) (e.subMod U V)

/-- Group `i` of a stage of R190: `j` from `j1 = 2*i*t` to `j1 + t - 1`, with twiddle `ROMF_k[brv_L(m + i)]`. -/
def ctGroup (e : Entry) (m t : Nat) (a : List Nat) (i : Nat) : List Nat :=
  (List.range t).foldl (fun a r => ctStep e t (e.romf (brv e.log2dim (m + i))) a (2 * i * t + r)) a

/-- One stage of R190: its groups `0 .. m-1`. -/
def ctStage (e : Entry) (m t : Nat) (a : List Nat) : List Nat := (List.range m).foldl (ctGroup e m t) a

/-- The `while` loop of R190, which runs `LOG2DIM_k` times. -/
def ctStages (e : Entry) : (stages m t : Nat) → List Nat → List Nat
  | 0, _, _, a => a
  | l + 1, m, t, a => ctStages e l (2 * m) (t / 2) (ctStage e m (t / 2) a)

/-- `forward_ntt` (R190): from `t = n`, `m = 1`. -/
def nttForward (e : Entry) (a : List Nat) : List Nat := ctStages e e.log2dim 1 e.dim a

/-- The body of R192's inner loop: the GS butterfly on `a[j]` and `a[j + t]` with the stage twiddle `S`. -/
def gsStep (e : Entry) (t S : Nat) (a : List Nat) (j : Nat) : List Nat :=
  let U := nth a j
  let V := nth a (j + t)
  (a.set j (e.addMod U V)).set (j + t) (e.reduce (e.subMod U V * S))

/-- Group `i` of a stage of R192: `j1` has grown by `2*t` for each earlier group, with twiddle `ROMI_k[brv_L(h + i)]`. -/
def gsGroup (e : Entry) (h t : Nat) (a : List Nat) (i : Nat) : List Nat :=
  (List.range t).foldl (fun a r => gsStep e t (e.romi (brv e.log2dim (h + i))) a (2 * i * t + r)) a

/-- One stage of R192: its groups `0 .. h-1`. -/
def gsStage (e : Entry) (h t : Nat) (a : List Nat) : List Nat := (List.range h).foldl (gsGroup e h t) a

/-- The `while` loop of R192, which runs `LOG2DIM_k` times. -/
def gsStages (e : Entry) : (stages m t : Nat) → List Nat → List Nat
  | 0, _, _, a => a
  | l + 1, m, t, a => gsStages e l (m / 2) (2 * t) (gsStage e (m / 2) t a)

/-- `reverse_ntt` (R192): from `t = 1`, `m = n`, and then the scaling by `DINV_k`. -/
def nttInverse (e : Entry) (a : List Nat) : List Nat :=
  (gsStages e e.log2dim e.dim 1 a).map (fun x => e.reduce (x * e.dinv))

/-- NTTF (R190). -/
def execNttf (k : Nat) (d sa : Bank) (s : State) : Host.Outcome State Fault Refusal :=
  match precheck true none k with
  | .error x => .next (s.raiseErr x)
  | .ok e => completeVector s e d ((lanes e s.mem sa).map (nttForward e))

/-- NTTI (R192). -/
def execNtti (k : Nat) (d sa : Bank) (s : State) : Host.Outcome State Fault Refusal :=
  match precheck true none k with
  | .error x => .next (s.raiseErr x)
  | .ok e => completeVector s e d ((lanes e s.mem sa).map (nttInverse e))

end Sys2Proof.Machine
end

