-- ==== Sys2Proof/Machine/Pointwise.lean ====
section
/-! DEFINITION. The pointwise multiplier (41_pointwise.md R140 to R142). -/

namespace Sys2Proof.Machine

/-- The lane products of PWMUL (R140). -/
def pointwise (e : Entry) (ps : List (Nat × Nat)) : List Nat := ps.map (fun p => e.reduce (p.1 * p.2))

/-- PWMUL (R140): all source words are read before any destination word is written, so D may be a source. -/
def execPwmul (k : Nat) (d sa sb : Bank) (s : State) : Host.Outcome State Fault Refusal :=
  match precheck false none k with
  | .error x => .next (s.raiseErr x)
  | .ok e => completeVector s e d ((lanePairs e s.mem sa sb).map (pointwise e))

end Sys2Proof.Machine
end

