-- ==== Sys2Proof/Machine/Twiddle.lean ====
section
/-! DEFINITION. The reads of the twiddle-factor ROM (42_twiddle_rom.md R154 to R156). -/

namespace Sys2Proof.Machine

/-- TWRF (R154): `RES0 <- ROMF_k[IDX]`. -/
def execTwrf (k idx : Nat) (s : State) : Host.Outcome State Fault Refusal :=
  completeScalar s do
    let e ← precheck true (some idx) k
    return s.setRes0 (e.romf idx)

/-- TWRI (R155): `RES0 <- ROMI_k[IDX]`. -/
def execTwri (k idx : Nat) (s : State) : Host.Outcome State Fault Refusal :=
  completeScalar s do
    let e ← precheck true (some idx) k
    return s.setRes0 (e.romi idx)

/-- DINV (R156): `RES0 <- DINV_k`. -/
def execDinv (k : Nat) (s : State) : Host.Outcome State Fault Refusal :=
  completeScalar s do
    let e ← precheck true none k
    return s.setRes0 e.dinv

end Sys2Proof.Machine
end

