-- ==== Sys2Proof/Machine/Dispatch.lean ====
section
/-! DEFINITION. The completion of each decoded command (60_exceptions.md R216). -/

namespace Sys2Proof.Machine

def exec (i : Instr) (s : State) : Host.Outcome State Fault Refusal :=
  match i with
  | .nop => Sys2Proof.Machine.execNop s
  | .modmul k => Sys2Proof.Machine.execModmul k s
  | .modred k => Sys2Proof.Machine.execModred k s
  | .modadd k => Sys2Proof.Machine.execModadd k s
  | .modsub k => Sys2Proof.Machine.execModsub k s
  | .bflyct k => Sys2Proof.Machine.execBflyct k s
  | .bflygs k => Sys2Proof.Machine.execBflygs k s
  | .twrf k idx => Sys2Proof.Machine.execTwrf k idx s
  | .twri k idx => Sys2Proof.Machine.execTwri k idx s
  | .dinv k => Sys2Proof.Machine.execDinv k s
  | .nttf k d sa => Sys2Proof.Machine.execNttf k d sa s
  | .ntti k d sa => Sys2Proof.Machine.execNtti k d sa s
  | .pwmul k d sa sb => Sys2Proof.Machine.execPwmul k d sa sb s

end Sys2Proof.Machine
end

