-- ==== Sys2Proof/Machine/Turns.lean ====
section
/-! DEFINITION. The transitions of the two agents (10_state.md R20, 20_memory.md R72, 60_exceptions.md R216) and how a
command comes to be the one the core runs next. -/

namespace Sys2Proof.Machine

/-- Completion of the accepted command `c` (R216): Decode, then the command, or the effects of a decode error. -/
def completeCmd (s : State) (c : Word) : Host.Outcome State Fault Refusal :=
  match decode c with
  | .ok i => exec i s
  | .error e => .next (s.raiseErr e)

/-- The core's turn: completion is its one enabled step while BUSY (R216); while IDLE it has none and waits for a CMD
write (R242). Assumption 4. -/
def coreStep (s : State) : Host.Outcome State Fault Refusal :=
  match s.phase with
  | .idle => .next s
  | .busy c => completeCmd s c

/-- One transition of the interleaving. -/
def takeTurn (s : State) : Turn → Host.Outcome State Fault Refusal
  | .core => coreStep s
  | .host op => .next (s.hostStep op)
  | .powerOn => .next s.powerOn

/-- The next transition of a state: its first pending turn, or the core's where none is pending, so that every accepted
command completes (R255). Assumption 4. -/
def nextTurn (s : State) : Host.Outcome State Fault Refusal :=
  match s.agenda with
  | [] => coreStep s
  | t :: rest => takeTurn { s with agenda := rest } t

/-- `s` with the command `c` just accepted (R215) and its completion the next transition. Assumption 6. -/
def State.loadCommand (s : State) (c : Word) : State :=
  { s.accept c with agenda := .core :: s.agenda }

end Sys2Proof.Machine
end

