-- ==== Sys2Proof/Machine/Step.lean ====
section
/-! DEFINITION. One step of the machine, and the state whose next step runs a given command word. -/

namespace Sys2Proof.Machine

/-- One atomic transition (R72). -/
def step (s : State) : Host.Outcome State Fault Refusal := nextTurn s

/-- `s` with the command word `w` of `nbits` bits accepted, so that the very next step completes it. Assumption 6. -/
def State.withFetchWord (s : State) (nbits w : Nat) : State := s.loadCommand (tableWord nbits w)

end Sys2Proof.Machine
end

