-- ==== Sys2Proof/Machine/HostProgram.lean ====
section
/-! DEFINITION. The host statements of 30_encoding.md R100 and the pseudo-instructions of R101, as the turns a host puts on
the agenda. They are no commands: each stands for bus accesses. -/

namespace Sys2Proof.Machine

/-- Register names of the host statements and their byte offsets (R63). -/
def addrCtrl : Addr := 0x10
/-- STATUS. -/
def addrStatus : Addr := 0x18
/-- CMD. -/
def addrCmd : Addr := 0x20
/-- OPA. -/
def addrOpa : Addr := 0x28
/-- OPB. -/
def addrOpb : Addr := 0x30
/-- OPT. -/
def addrOpt : Addr := 0x38

/-- `WR <reg>, <v>` is `MemWrite(addr(reg), 8, v)` (R100). -/
def wr (a : Addr) (v : Word) : Turn := .host (.write a 8 v)

/-- `RD <reg>` is `MemRead(addr(reg), 8)` (R100). -/
def rd (a : Addr) : Turn := .host (.read a 8)

/-- `WRB b<n>, [v0, v1, ...]` writes words 0, 1, ... of bank n (R100). -/
def wrb (b : Bank) (vs : List Word) : List Turn :=
  vs.zipIdx.map (fun p => wr (BitVec.ofNat 18 (bankAddr b p.2)) p.1)

/-- A command line stands for `WR CMD, zext_64(encoding)` (R100). -/
def commandLine (i : Instr) : Turn := wr addrCmd (encode i)

/-- `WAIT` (R100), in the interleaving where the command completes before the first poll. Assumption 17. -/
def wait : List Turn := [.core, rd addrStatus]

/-- `MODSQR c<k>, <x>` (R101). -/
def modsqr (k : Nat) (x : Word) : List Turn := [wr addrOpa x, wr addrOpb x, commandLine (.modmul k)] ++ wait

/-- `MODDBL c<k>, <x>` (R101). -/
def moddbl (k : Nat) (x : Word) : List Turn := [wr addrOpa x, wr addrOpb x, commandLine (.modadd k)] ++ wait

/-- `MODNEG c<k>, <x>` (R101). -/
def modneg (k : Nat) (x : Word) : List Turn := [wr addrOpa 0, wr addrOpb x, commandLine (.modsub k)] ++ wait

/-- `RINGMUL c<k>, b<d>, b<a>, b<b>` (R101); it needs `a != b`. -/
def ringmul (k : Nat) (d a b : Bank) : List Turn :=
  [commandLine (.nttf k a a)] ++ wait ++ [commandLine (.nttf k b b)] ++ wait ++
    [commandLine (.pwmul k d a b)] ++ wait ++ [commandLine (.ntti k d d)] ++ wait

end Sys2Proof.Machine
end

