-- ==== Sys2Proof/Safety.lean ====
section
/-! DEFINITION. The terms claims are stated in: what a completion leaves (60_exceptions.md R216 to R218), when a source is
ready (70_reset_and_hazards.md R244), which accesses the block does not admit (20_memory.md R66), and the invariant of the
machine. Everything here is written from the spec, beside the machine's own functions and not over them, where the two
could differ. -/

namespace Sys2Proof

/-- The configuration entry number a command names; NOP names none (R93). -/
def Instr.cfg? : Instr → Option Nat
  | .nop => none
  | .modmul k => some k
  | .modred k => some k
  | .modadd k => some k
  | .modsub k => some k
  | .bflyct k => some k
  | .bflygs k => some k
  | .twrf k _ => some k
  | .twri k _ => some k
  | .dinv k => some k
  | .nttf k _ _ => some k
  | .ntti k _ _ => some k
  | .pwmul k _ _ _ => some k

/-- The command reads the twiddle ROM, so its entry must have a root (R96). -/
def Instr.needsRoot : Instr → Bool
  | .nop => false
  | .modmul _ => false
  | .modred _ => false
  | .modadd _ => false
  | .modsub _ => false
  | .bflyct _ => false
  | .bflygs _ => false
  | .twrf _ _ => true
  | .twri _ _ => true
  | .dinv _ => true
  | .nttf _ _ _ => true
  | .ntti _ _ _ => true
  | .pwmul _ _ _ _ => false

/-- The command is a butterfly, the only kind that writes RES1 (R29). -/
def Instr.isButterfly : Instr → Bool
  | .nop => false
  | .modmul _ => false
  | .modred _ => false
  | .modadd _ => false
  | .modsub _ => false
  | .bflyct _ => true
  | .bflygs _ => true
  | .twrf _ _ => false
  | .twri _ _ => false
  | .dinv _ => false
  | .nttf _ _ _ => false
  | .ntti _ _ _ => false
  | .pwmul _ _ _ _ => false

/-- The source banks of a vector command (R140, R190, R192). -/
def Instr.sources : Instr → List Bank
  | .nop => []
  | .modmul _ => []
  | .modred _ => []
  | .modadd _ => []
  | .modsub _ => []
  | .bflyct _ => []
  | .bflygs _ => []
  | .twrf _ _ => []
  | .twri _ _ => []
  | .dinv _ => []
  | .nttf _ _ sa => [sa]
  | .ntti _ _ sa => [sa]
  | .pwmul _ _ sa sb => [sa, sb]

/-- The command is one of NTTF, NTTI and PWMUL, the only ones that write a bank (R27, R29). -/
def Instr.isVector : Instr → Bool
  | .nop => false
  | .modmul _ => false
  | .modred _ => false
  | .modadd _ => false
  | .modsub _ => false
  | .bflyct _ => false
  | .bflygs _ => false
  | .twrf _ _ => false
  | .twri _ _ => false
  | .dinv _ => false
  | .nttf _ _ _ => true
  | .ntti _ _ _ => true
  | .pwmul _ _ _ _ => true

/-- The one CMD value that decodes to the command is `w` (R94: match, mask and the fields between). -/
def Instr.encodedAs (i : Instr) (w : Nat) : Prop := ∀ c : Word, decode c = .ok i ↔ c = BitVec.ofNat 64 w

/-- The operand range of R11: below `2^EW_k` for a lazy entry, below `Q_k` otherwise. -/
def Entry.inRange (e : Entry) (x : Word) : Bool := decide (x.toNat < if e.lazy then 2 ^ e.ew else e.q)

namespace Machine

/-- The state after a completion without error, but for the command's own writes (R216). -/
def State.completed (s : State) : State := { s with done := true, phase := .idle }

/-- The state after `log(e)` (R218). -/
def State.logged (s : State) (e : ErrCode) : State :=
  { s with err := true, errMulti := s.errMulti || s.err, errCode := if s.err then s.errCode else e }

/-- The state after a completion with the error `e`, but for UNINIT words (R216, R217). -/
def State.afterError (s : State) (e : ErrCode) : State := (s.logged e).completed

/-- Words `0 .. DIM_k - 1` of a source bank are defined and in range (R244 step 3). -/
def Memory.ready (m : Memory) (e : Entry) (b : Bank) : Prop :=
  ∀ i, i < e.dim → ∃ w, m.bankWord b i = some w ∧ e.inRange w = true

/-- Words `0 .. DIM_k - 1` of a source bank are all defined. -/
def Memory.filled (m : Memory) (e : Entry) (b : Bank) : Prop :=
  ∀ i, i < e.dim → ∃ w, m.bankWord b i = some w

/-- Some word below `DIM_k` of a source bank is out of range (R11). -/
def Memory.outOfRange (m : Memory) (e : Entry) (b : Bank) : Prop :=
  ∃ i w, i < e.dim ∧ m.bankWord b i = some w ∧ e.inRange w = false

/-- The element a bank word denotes: `x mod Q_k` (R14, "lazy"); 0 for an UNINIT word. -/
def Memory.elem (m : Memory) (e : Entry) (b : Bank) (i : Nat) : Nat :=
  match m.bankWord b i with
  | none => 0
  | some w => w.toNat % e.q

/-- Address `a` is a byte of words `0 .. n-1` of bank `b` (R64). -/
def inWords (b : Bank) (n a : Nat) : Prop :=
  0x10000 + 0x8000 * b.val ≤ a ∧ a < 0x10000 + 0x8000 * b.val + 8 * n

/-- Every byte outside words `0 .. n-1` of bank `b` reads as before. -/
def Memory.sameOutside (m m' : Memory) (b : Bank) (n : Nat) : Prop :=
  ∀ a, ¬ inWords b n a → m'.readByte a = m.readByte a

/-- Address `a` is a byte of an existing bank word (R64). -/
def inBanks (a : Nat) : Prop := ∃ b : Bank, inWords b 512 a

/-- The address ranges that exist for no access (R63, R64, R65). -/
def reservedAddr (a : Nat) : Prop :=
  (0x50 ≤ a ∧ a < 0x100) ∨ (0x180 ≤ a ∧ a < 0x10000) ∨
    (0x10000 ≤ a ∧ a < 0x30000 ∧ 0x1000 ≤ (a - 0x10000) % 0x8000) ∨ 0x30000 ≤ a

/-- The addresses of ID, CAP, RES0, RES1 and the configuration registers (R63, R67). -/
def readOnlyAddr (a : Nat) : Prop :=
  a = 0x00 ∨ a = 0x08 ∨ a = 0x40 ∨ a = 0x48 ∨ (0x100 ≤ a ∧ a < 0x180)

/-- The accesses the block does not admit (R66). -/
def HostOp.notAdmitted : HostOp → Prop
  | .read addr size => size ≠ 8 ∨ addr.toNat % 8 ≠ 0 ∨ reservedAddr addr.toNat
  | .write addr size _ => size ≠ 8 ∨ addr.toNat % 8 ≠ 0 ∨ reservedAddr addr.toNat ∨ readOnlyAddr addr.toNat

/-- The host access performs the soft reset: an admitted write to CTRL with bit 0 set (R23, R241). -/
def HostOp.isSoftReset : HostOp → Bool
  | .read _ _ => false
  | .write addr size v => addr == 0x10 && size == 8 && v.getLsbD 0

/-- The host access writes 1 to the given bit of STATUS (R24). -/
def HostOp.acksBit (j : Nat) : HostOp → Bool
  | .read _ _ => false
  | .write addr size v => addr == 0x18 && size == 8 && v.getLsbD j

/-- The host access is an admitted write of CMD (R25). -/
def HostOp.writesCmd : HostOp → Bool
  | .read _ _ => false
  | .write addr size _ => addr == 0x20 && size == 8

/-- The turn the next step takes (R72): the first of the agenda, or the core's. -/
def State.turn (s : State) : Turn := s.agenda.headD .core

/-- The state in which that turn is taken. -/
def State.dequeue (s : State) : State := { s with agenda := s.agenda.tail }

/-- The turn is a reset of either kind (R240, R241). -/
def Turn.isReset : Turn → Bool
  | .core => false
  | .host op => op.isSoftReset
  | .powerOn => true

/-- Coefficient `i` of the polynomial in bank `b`, evaluated with the root power of R191: the term `p_j * psi^((2*brv_L(i)+1)*j)`. -/
def evalTerm (e : Entry) (p : Nat → Nat) (i j : Nat) : Nat := p j * e.psi ^ ((2 * brv e.log2dim i + 1) * j)

/-- The value of the polynomial `p` at the `i`-th designated root (R191). -/
def evalAt (e : Entry) (p : Nat → Nat) (i : Nat) : Nat := (∑ j ∈ Finset.range e.dim, evalTerm e p i j) % e.q

/-- Coefficient `r` of the negacyclic product of `p` and `b` (R193 item 2). -/
def negacyclic (e : Entry) (p b : Nat → Nat) (r : Nat) : Nat :=
  ((∑ i ∈ Finset.range e.dim, ∑ j ∈ Finset.range e.dim,
      (if i + j = r then ((p i * b j : Nat) : Int)
       else if i + j = r + e.dim then -((p i * b j : Nat) : Int) else 0)) % (e.q : Int)).toNat

/-- What every reachable state satisfies. -/
structure State.Inv (s : State) : Prop where
  /-- The banks keep their canonical form. -/
  memWf : s.mem.wf = true
  /-- Only bytes of existing bank words hold values (R64). -/
  memInBanks : ∀ a, (s.mem.readByte a).isSome = true → inBanks a
  /-- A word is defined or UNINIT as a whole (R27, R68). -/
  memWhole : ∀ a, (s.mem.readByte a).isSome = (s.mem.readByte (a - a % 8)).isSome
  /-- `ERR = 0` implies `ERR_MULTI = 0` and `ERR_CODE = 0` (R24). -/
  errClear : s.err = false → s.errMulti = false ∧ s.errCode = .none
  /-- With ERR set, ERR_CODE names an error (R218). -/
  errNamed : s.err = true → s.errCode ≠ .none
  /-- While BUSY(c), CMD holds `c` (R25, R215, R219). -/
  busyCmd : ∀ c, s.phase = .busy c → s.cmd = c
  /-- While BUSY, DONE is 0 (R215, R216). -/
  busyNotDone : s.busy = true → s.done = false

end Machine

end Sys2Proof
end

