-- ==== Sys2Proof/Certificates/Slice0/Obligations.lean ====
section
/-! DEFINITION. The statements for the provers. Each cites the rule of spec/ it formalises. -/

open Sys2Proof Sys2Proof.Machine

/-! ### Reset -/

/-- 10_state.md R36 (the state rows), with ID and CAP of R21 and R22 and IRQ of R34: what power-on reset leaves. -/
def Obligations.ResetLeavesZeroRegistersIdleCoreUninitBanks : Prop :=
  let s := State.reset
  (s.hostRead 0x000 8).resp = some ⟨false, some 0x4C41524B00070001⟩ ∧
    (s.hostRead 0x008 8).resp = some ⟨false, some 0x0000004002000404⟩ ∧
    s.ctrlWord = 0 ∧ s.statusWord = 0 ∧ s.cmd = 0 ∧ s.opa = 0 ∧ s.opb = 0 ∧ s.opt = 0 ∧ s.res0 = 0 ∧ s.res1 = 0 ∧
    s.phase = .idle ∧ s.irq = false ∧ ∀ b i, s.mem.bankWord b i = none

/-- The invariant holds after power-on reset. -/
def Obligations.ResetMeetsInvariant : Prop := State.reset.Inv

/-- 70_reset_and_hazards.md R240: power-on reset gives every piece of hardware state its reset value, in any state. The
host's agenda, the count of free values and the recorded modelling fault are the model's own and stay (assumptions 1, 2
and 4). That the last bus response, the model's own field too, becomes none is the model's choice (assumption 7). -/
def Obligations.PowerOnResetsAllHardwareState : Prop :=
  ∀ (s : State) (rest : List Turn), s.agenda = .powerOn :: rest →
    step s = .next { State.reset with agenda := rest, uninitRead := s.uninitRead, free := s.free }

/-- 70_reset_and_hazards.md R241: the soft reset. A running vector command with an entry that exists leaves its
destination words UNINIT; no other bank word changes; every register is 0 and the enables come from the write data. -/
def Obligations.SoftResetAbortsAndClears : Prop :=
  ∀ (s : State) (v : Word), v.getLsbD 0 = true → ∃ m : Memory,
    s.hostStep (.write 0x10 8 v) =
      { s with
        doneIe := v.getLsbD 1, errIe := v.getLsbD 2, done := false, err := false, errMulti := false, errCode := .none
        cmd := 0, opa := 0, opb := 0, opt := 0, res0 := 0, res1 := 0, phase := .idle, mem := m
        resp := some ⟨false, none⟩ } ∧
      ((∃ c i k d sa sb e, s.phase = .busy c ∧ decode c = .ok i ∧
          (i = .nttf k d sa ∨ i = .ntti k d sa ∨ i = .pwmul k d sa sb) ∧ entry? k = some e ∧
          (∀ j, j < e.dim → m.bankWord d j = none) ∧ s.mem.sameOutside m d e.dim) ∨
        ((∀ c i k d sa sb, s.phase = .busy c → decode c = .ok i →
            (i = .nttf k d sa ∨ i = .ntti k d sa ∨ i = .pwmul k d sa sb) → 4 ≤ k) ∧ m = s.mem))

/-- 10_state.md R23: a CTRL write without SOFT_RESET only stores the two enables, busy or not, and CTRL reads them back
with bit 0 and bits 63:3 as 0. -/
def Obligations.CtrlWriteStoresEnables : Prop :=
  ∀ (s : State) (v : Word), v.getLsbD 0 = false →
    s.hostStep (.write 0x10 8 v) =
        { s with doneIe := v.getLsbD 1, errIe := v.getLsbD 2, resp := some ⟨false, none⟩ } ∧
      ((s.hostStep (.write 0x10 8 v)).hostStep (.read 0x10 8)).resp = some ⟨false, some (v &&& 0x6)⟩

/-! ### Encoding -/

/-- 30_encoding.md R94, R95: decoding the encoding of a well-formed command gives it back, with every operand. -/
def Obligations.DecodeOfEncodeIsIdentity : Prop := ∀ i : Instr, i.wf = true → decode (encode i) = .ok i

/-- 30_encoding.md R94: every accepted word is the encoding of the command it decodes to, which is well formed, so no bit
of it goes unread and no two words stand for one command. -/
def Obligations.AcceptedWordsAreEncodings : Prop :=
  ∀ (c : Word) (i : Instr), decode c = .ok i → i.wf = true ∧ encode i = c

/-- 30_encoding.md R94: no two rows match the same word. -/
def Obligations.NoTwoRowsMatchOneWord : Prop :=
  ∀ w : CmdWord, rows.Pairwise (fun r r' => ¬ (r.selects w = true ∧ r'.selects w = true))

/-- 30_encoding.md R95: the order of the decode checks, over its set of operation codes. -/
def Obligations.DecodeErrorsInOrder : Prop :=
  let opcs : List (BitVec 8) := [0x00, 0x01, 0x02, 0x03, 0x04, 0x05, 0x06, 0x07, 0x10, 0x11, 0x12]
  ∀ c : Word,
    (c.extractLsb' 32 32 ≠ 0 → decode c = .error .reservedField) ∧
    (c.extractLsb' 32 32 = 0 → c.extractLsb' 0 8 ∉ opcs → decode c = .error .illegalOpc) ∧
    (c.extractLsb' 32 32 = 0 → c.extractLsb' 0 8 ∈ opcs →
      (∀ r ∈ rows, c.extractLsb' 0 32 &&& r.mask ≠ r.bits) → decode c = .error .reservedField) ∧
    (c.extractLsb' 32 32 = 0 → c.extractLsb' 0 8 ∈ opcs →
      ∀ r ∈ rows, c.extractLsb' 0 32 &&& r.mask = r.bits → decode c = .ok (r.build (c.extractLsb' 0 32)))

/-- 30_encoding.md R100: its example words decode to the commands they stand for. A sanity statement. -/
def Obligations.SpecExampleWordsDecode : Prop :=
  decode 0x00020001 = .ok (.modmul 2) ∧ decode 0x00310007 = .ok (.twrf 1 3) ∧
    decode 0x00010010 = .ok (.nttf 1 0 0) ∧ decode 0x00012412 = .ok (.pwmul 1 2 0 1) ∧
    decode 0x00012211 = .ok (.ntti 1 2 2)

/-! ### The command life cycle -/

/-- 60_exceptions.md R216: while BUSY(c), the core's turn completes the command `c` decodes to. The turn is the model's
form of the interleaving (assumption 4). -/
def Obligations.StepRunsDecodedCommand : Prop :=
  ∀ (s : State) (c : Word) (i : Instr), s.phase = .busy c → s.turn = .core → decode c = .ok i →
    step s = exec i s.dequeue

/-- 30_encoding.md R98, 60_exceptions.md R217: a command that does not decode completes with its code and no other
effect. -/
def Obligations.StepRejectsUndecodableCommand : Prop :=
  ∀ (s : State) (c : Word) (x : ErrCode), s.phase = .busy c → s.turn = .core → decode c = .error x →
    step s = .next (s.dequeue.afterError x)

/-- 93_implementation_defined.md: "No behaviour of this block is treated as `stuck`". -/
def Obligations.EveryStepReachesNextState : Prop := ∀ s : State, ∃ t, step s = .next t

/-- 60_exceptions.md R215: acceptance. -/
def Obligations.CmdWriteWhileIdleIsAccepted : Prop :=
  ∀ (s : State) (v : Word), s.phase = .idle →
    s.hostStep (.write 0x20 8 v) =
      { s with cmd := v, done := false, phase := .busy v, resp := some ⟨false, none⟩ }

/-- 60_exceptions.md R219: a CMD write while BUSY only logs CMD_BUSY. -/
def Obligations.CmdWriteWhileBusyOnlyLogs : Prop :=
  ∀ (s : State) (c v : Word), s.phase = .busy c →
    s.hostStep (.write 0x20 8 v) = { s.logged .cmdBusy with resp := some ⟨false, none⟩ }

/-- 60_exceptions.md R220: a write of an operand register or bank word while BUSY only logs HOST_BUSY. -/
def Obligations.OperandWriteWhileBusyOnlyLogs : Prop :=
  ∀ (s : State) (c v : Word) (a : Addr), s.phase = .busy c →
    (a = 0x28 ∨ a = 0x30 ∨ a = 0x38 ∨ ∃ (b : Bank) (i : Nat), i < 512 ∧ a = BitVec.ofNat 18 (0x10000 + 0x8000 * b.val + 8 * i)) →
    s.hostStep (.write a 8 v) = { s.logged .hostBusy with resp := some ⟨false, none⟩ }

/-- 20_memory.md R71, R73: while BUSY, no host access but a soft reset changes the command, its inputs or its results. -/
def Obligations.HostCannotChangeInputsWhileBusy : Prop :=
  ∀ (s : State) (op : HostOp), s.busy = true → op.isSoftReset = false →
    let t := s.hostStep op
    t.phase = s.phase ∧ t.cmd = s.cmd ∧ t.opa = s.opa ∧ t.opb = s.opb ∧ t.opt = s.opt ∧ t.mem = s.mem ∧
      t.res0 = s.res0 ∧ t.res1 = s.res1

/-- 70_reset_and_hazards.md R255: an accepted command completes after finitely many transitions unless a reset
intervenes: whatever the agenda, within one more step than it has turns the command has completed, with DONE set, or a
reset was among the turns taken. The agenda, and the core's turn where it is empty, are the model's form of R255's fairness
(assumption 4). -/
def Obligations.AcceptedCommandCompletes : Prop :=
  ∀ s : State, s.busy = true → (∀ t ∈ s.agenda, t.isReset = false) →
    ∃ n t, n ≤ s.agenda.length + 1 ∧ core.run n s = .next t ∧ t.phase = .idle ∧ t.done = true

/-! ### Precheck errors -/

/-- 30_encoding.md R96, R98: `CFG >= NCFG` is BAD_CFG for every command but NOP, before any other check, with no other
effect. -/
def Obligations.AbsentEntryIsBadCfg : Prop :=
  ∀ (i : Instr) (k : Nat) (s : State), i.cfg? = some k → 4 ≤ k → exec i s = .next (s.afterError .badCfg)

/-- 30_encoding.md R96, 42_twiddle_rom.md R153: the five commands that need a root complete with NO_ROOT on entry 0,
whatever the index. -/
def Obligations.EntryWithoutRootIsNoRoot : Prop :=
  ∀ (i : Instr) (s : State), i.needsRoot = true → i.cfg? = some 0 → exec i s = .next (s.afterError .noRoot)

/-! ### The scalar commands: result, errors, frame and encoding -/

/-- 40_modular.md R110: NOP, and every other word with its operation code is RESERVED_FIELD. -/
def Obligations.NopOnlyCompletes : Prop :=
  Instr.nop.encodedAs 0x00000000 ∧
    (∀ c : Word, c.extractLsb' 0 8 = 0 → c ≠ 0 → decode c = .error .reservedField) ∧
    ∀ s : State, exec .nop s = .next s.completed

/-- 40_modular.md R111: MODMUL. The product is of the elements the operands denote, so a lazy operand needs no case. -/
def Obligations.ModmulGivesProduct : Prop :=
  ∀ (k : Nat) (s : State),
    (k < 16 → (Instr.modmul k).encodedAs (0x00000001 + 0x10000 * k)) ∧
    (4 ≤ k → exec (.modmul k) s = .next (s.afterError .badCfg)) ∧
    ∀ e, entry? k = some e →
      (e.inRange s.opa = true ∧ e.inRange s.opb = true →
        exec (.modmul k) s =
          .next (State.completed { s with res0 := BitVec.ofNat 64 (s.opa.toNat * s.opb.toNat % e.q) })) ∧
      (e.inRange s.opa = false ∨ e.inRange s.opb = false →
        exec (.modmul k) s = .next (s.afterError .operandRange))

/-- 40_modular.md R112: MODRED on the 128-bit value (OPB, OPA), with no canon. -/
def Obligations.ModredGivesResidue : Prop :=
  ∀ (k : Nat) (s : State),
    (k < 16 → (Instr.modred k).encodedAs (0x00000002 + 0x10000 * k)) ∧
    (4 ≤ k → exec (.modred k) s = .next (s.afterError .badCfg)) ∧
    ∀ e, entry? k = some e →
      ((s.opb ++ s.opa).toNat < 2 ^ (2 * e.ew) →
        exec (.modred k) s =
          .next (State.completed { s with res0 := BitVec.ofNat 64 ((s.opb ++ s.opa).toNat % e.q) })) ∧
      (2 ^ (2 * e.ew) ≤ (s.opb ++ s.opa).toNat → exec (.modred k) s = .next (s.afterError .operandRange))

/-- 40_modular.md R113: MODADD. -/
def Obligations.ModaddGivesSum : Prop :=
  ∀ (k : Nat) (s : State),
    (k < 16 → (Instr.modadd k).encodedAs (0x00000003 + 0x10000 * k)) ∧
    (4 ≤ k → exec (.modadd k) s = .next (s.afterError .badCfg)) ∧
    ∀ e, entry? k = some e →
      (e.inRange s.opa = true ∧ e.inRange s.opb = true →
        exec (.modadd k) s =
          .next (State.completed { s with res0 := BitVec.ofNat 64 ((s.opa.toNat + s.opb.toNat) % e.q) })) ∧
      (e.inRange s.opa = false ∨ e.inRange s.opb = false →
        exec (.modadd k) s = .next (s.afterError .operandRange))

/-- 40_modular.md R114: MODSUB, the mathematical difference reduced with the floored remainder of R9. -/
def Obligations.ModsubGivesDifference : Prop :=
  ∀ (k : Nat) (s : State),
    (k < 16 → (Instr.modsub k).encodedAs (0x00000004 + 0x10000 * k)) ∧
    (4 ≤ k → exec (.modsub k) s = .next (s.afterError .badCfg)) ∧
    ∀ e, entry? k = some e →
      (e.inRange s.opa = true ∧ e.inRange s.opb = true →
        exec (.modsub k) s =
          .next (State.completed
            { s with res0 := BitVec.ofInt 64 (((s.opa.toNat : Int) - s.opb.toNat) % (e.q : Int)) })) ∧
      (e.inRange s.opa = false ∨ e.inRange s.opb = false →
        exec (.modsub k) s = .next (s.afterError .operandRange))

/-- 43_butterfly.md R170: BFLYCT gives `(u + t*v, u - t*v) mod q`. -/
def Obligations.BflyctGivesButterfly : Prop :=
  ∀ (k : Nat) (s : State),
    (k < 16 → (Instr.bflyct k).encodedAs (0x00000005 + 0x10000 * k)) ∧
    (4 ≤ k → exec (.bflyct k) s = .next (s.afterError .badCfg)) ∧
    ∀ e, entry? k = some e →
      (e.inRange s.opa = true ∧ e.inRange s.opb = true ∧ e.inRange s.opt = true →
        exec (.bflyct k) s =
          .next (State.completed
            { s with
              res0 := BitVec.ofNat 64 ((s.opa.toNat + s.opt.toNat * s.opb.toNat) % e.q)
              res1 := BitVec.ofInt 64 (((s.opa.toNat : Int) - s.opt.toNat * s.opb.toNat) % (e.q : Int)) })) ∧
      (e.inRange s.opa = false ∨ e.inRange s.opb = false ∨ e.inRange s.opt = false →
        exec (.bflyct k) s = .next (s.afterError .operandRange))

/-- 43_butterfly.md R171: BFLYGS gives `(u + v, (u - v)*t) mod q`. -/
def Obligations.BflygsGivesButterfly : Prop :=
  ∀ (k : Nat) (s : State),
    (k < 16 → (Instr.bflygs k).encodedAs (0x00000006 + 0x10000 * k)) ∧
    (4 ≤ k → exec (.bflygs k) s = .next (s.afterError .badCfg)) ∧
    ∀ e, entry? k = some e →
      (e.inRange s.opa = true ∧ e.inRange s.opb = true ∧ e.inRange s.opt = true →
        exec (.bflygs k) s =
          .next (State.completed
            { s with
              res0 := BitVec.ofNat 64 ((s.opa.toNat + s.opb.toNat) % e.q)
              res1 := BitVec.ofInt 64 ((((s.opa.toNat : Int) - s.opb.toNat) * s.opt.toNat) % (e.q : Int)) })) ∧
      (e.inRange s.opa = false ∨ e.inRange s.opb = false ∨ e.inRange s.opt = false →
        exec (.bflygs k) s = .next (s.afterError .operandRange))

/-- 42_twiddle_rom.md R154: TWRF reads the power of `psi`. -/
def Obligations.TwrfGivesRootPower : Prop :=
  ∀ (k idx : Nat) (s : State),
    (k < 16 → idx < 4096 → (Instr.twrf k idx).encodedAs (0x00000007 + 0x10000 * k + 0x100000 * idx)) ∧
    (4 ≤ k → exec (.twrf k idx) s = .next (s.afterError .badCfg)) ∧
    ∀ e, entry? k = some e →
      (e.nttOk = false → exec (.twrf k idx) s = .next (s.afterError .noRoot)) ∧
      (e.nttOk = true → e.dim ≤ idx → exec (.twrf k idx) s = .next (s.afterError .idxRange)) ∧
      (e.nttOk = true → idx < e.dim →
        exec (.twrf k idx) s = .next (State.completed { s with res0 := BitVec.ofNat 64 (e.psi ^ idx % e.q) }))

/-- 42_twiddle_rom.md R155 with R150 and R9: TWRI reads the canonical inverse of the power of `psi`. -/
def Obligations.TwriGivesInverseRootPower : Prop :=
  ∀ (k idx : Nat) (s : State),
    (k < 16 → idx < 4096 → (Instr.twri k idx).encodedAs (0x00004007 + 0x10000 * k + 0x100000 * idx)) ∧
    (4 ≤ k → exec (.twri k idx) s = .next (s.afterError .badCfg)) ∧
    ∀ e, entry? k = some e →
      (e.nttOk = false → exec (.twri k idx) s = .next (s.afterError .noRoot)) ∧
      (e.nttOk = true → e.dim ≤ idx → exec (.twri k idx) s = .next (s.afterError .idxRange)) ∧
      (e.nttOk = true → idx < e.dim →
        ∃ r : Word, r.toNat < e.q ∧ r.toNat * e.psi ^ idx % e.q = 1 ∧
          exec (.twri k idx) s = .next (State.completed { s with res0 := r }))

/-- 42_twiddle_rom.md R156: DINV reads the canonical inverse of `DIM_k`; SEL = 3, or an IDX that is not 0, is
RESERVED_FIELD. -/
def Obligations.DinvGivesInverseDimension : Prop :=
  ∀ (k : Nat) (s : State),
    (k < 16 → (Instr.dinv k).encodedAs (0x00008007 + 0x10000 * k)) ∧
    (∀ c : Word, c.extractLsb' 0 8 = 7 →
      (c.extractLsb' 14 2 = 3 ∨ (c.extractLsb' 14 2 = 2 ∧ c.extractLsb' 20 12 ≠ 0)) → decode c = .error .reservedField) ∧
    (4 ≤ k → exec (.dinv k) s = .next (s.afterError .badCfg)) ∧
    ∀ e, entry? k = some e →
      (e.nttOk = false → exec (.dinv k) s = .next (s.afterError .noRoot)) ∧
      (e.nttOk = true →
        ∃ r : Word, r.toNat < e.q ∧ r.toNat * e.dim % e.q = 1 ∧
          exec (.dinv k) s = .next (State.completed { s with res0 := r }))

/-! ### Arithmetic -/

/-- 00_scope.md R6: the entries are legal. -/
def Obligations.ConfigurationEntriesAreLegal : Prop :=
  ∀ (k : Nat) (e : Entry), entry? k = some e →
    e.q.Prime ∧ Odd e.q ∧ e.q < 2 ^ e.ew ∧ e.q ^ 2 < 2 ^ (2 * e.ew) ∧ 2 ^ (2 * e.ew) ≤ 2 ^ 128 ∧
      e.dim = 2 ^ e.log2dim ∧ e.dim ≤ 512 ∧ (e.ew = 16 ∨ e.ew = 32 ∨ e.ew = 64) ∧
      (e.lazy = true → 2 ^ e.ew < 2 * e.q)

/-- 42_twiddle_rom.md R151, R150: `psi` is a primitive `2*DIM_k`-th root of unity, its power `DIM_k` is -1, and `DINV_k`
is the canonical inverse of `DIM_k`. -/
def Obligations.RootsArePrimitive : Prop :=
  ∀ (k : Nat) (e : Entry), entry? k = some e → e.nttOk = true →
    e.psi ^ e.dim % e.q = e.q - 1 ∧ orderOf (e.psi : ZMod e.q) = 2 * e.dim ∧ e.dinv < e.q ∧ e.dinv * e.dim % e.q = 1

/-- 42_twiddle_rom.md R157: the table relations. -/
def Obligations.TwiddleTablesAreRelated : Prop :=
  ∀ (k : Nat) (e : Entry), entry? k = some e → e.nttOk = true →
    (∀ i, i < e.dim → e.romf i * e.romi i % e.q = 1) ∧
    (∀ i j, i < e.dim → j < e.dim → i + j < e.dim → e.romf i * e.romf j % e.q = e.romf (i + j)) ∧
    e.romf (e.dim - 1) * e.psi % e.q = e.q - 1

/-- 43_butterfly.md R172: BFLYGS with the inverse twiddle undoes BFLYCT up to the factor 2. -/
def Obligations.GsButterflyInvertsCtUpToTwo : Prop :=
  ∀ (k : Nat) (e : Entry) (s : State) (t' : Word), entry? k = some e →
    s.opa.toNat < e.q → s.opb.toNat < e.q → s.opt.toNat < e.q → t'.toNat < e.q → s.opt.toNat * t'.toNat % e.q = 1 →
    ∃ s₁ s₂, exec (.bflyct k) s = .next s₁ ∧
      exec (.bflygs k) { s₁ with opa := s₁.res0, opb := s₁.res1, opt := t' } = .next s₂ ∧
      s₂.res0.toNat = 2 * s.opa.toNat % e.q ∧ s₂.res1.toNat = 2 * s.opb.toNat % e.q

/-! ### The vector commands -/

/-- 41_pointwise.md R140, R141: the words of PWMUL, for all operands; and PWMUL of two ready banks writes the lane products, each of its own lane's words, and
nothing else; the sources are read before the destination is written, so D may be a source. -/
def Obligations.PwmulGivesLaneProducts : Prop :=
  ∀ (k : Nat) (d sa sb : Bank),
    (k < 16 → (Instr.pwmul k d sa sb).encodedAs
      (0x00000012 + 0x100 * sa.val + 0x400 * sb.val + 0x1000 * d.val + 0x10000 * k)) ∧
    ∀ (e : Entry) (s : State), entry? k = some e → s.mem.ready e sa → s.mem.ready e sb →
      ∃ m : Memory, exec (.pwmul k d sa sb) s = .next (State.completed { s with mem := m }) ∧
        (∀ i, i < e.dim → m.bankWord d i = some (BitVec.ofNat 64 (s.mem.elem e sa i * s.mem.elem e sb i % e.q))) ∧
        s.mem.sameOutside m d e.dim

/-- 44_ntt.md R191, R195: the words of NTTF, for all operands (R190, 30_encoding.md R94); and NTTF of a ready bank writes the evaluations of its polynomial at the odd powers of `psi`, in
bit-reversed order, and nothing else, in place or out of place. -/
def Obligations.NttfGivesEvaluations : Prop :=
  ∀ (k : Nat) (d sa : Bank),
    (k < 16 → (Instr.nttf k d sa).encodedAs (0x00000010 + 0x100 * sa.val + 0x1000 * d.val + 0x10000 * k)) ∧
    ∀ (e : Entry) (s : State), entry? k = some e → e.nttOk = true → s.mem.ready e sa →
      ∃ m : Memory, exec (.nttf k d sa) s = .next (State.completed { s with mem := m }) ∧
        (∀ i, i < e.dim → m.bankWord d i = some (BitVec.ofNat 64 (evalAt e (s.mem.elem e sa) i))) ∧
        s.mem.sameOutside m d e.dim

/-- 44_ntt.md R192, R193, R195: the words of NTTI, for all operands (R192, 30_encoding.md R94); and NTTI of a ready bank writes the one canonical polynomial whose evaluations the bank holds,
and nothing else, in place or out of place. -/
def Obligations.NttiInterpolates : Prop :=
  ∀ (k : Nat) (d sa : Bank),
    (k < 16 → (Instr.ntti k d sa).encodedAs (0x00000011 + 0x100 * sa.val + 0x1000 * d.val + 0x10000 * k)) ∧
    ∀ (e : Entry) (s : State), entry? k = some e → e.nttOk = true → s.mem.ready e sa →
      ∃ m : Memory, exec (.ntti k d sa) s = .next (State.completed { s with mem := m }) ∧
        (∀ j, j < e.dim → ∃ w, m.bankWord d j = some w ∧ w.toNat < e.q) ∧
        (∀ i, i < e.dim → evalAt e (m.elem e d) i = s.mem.elem e sa i) ∧
        s.mem.sameOutside m d e.dim

/-- 44_ntt.md R193 item 1: the round trip NTTI(NTTF(p)) = p, on the machine, through any two destination banks,
with no error logged. -/
def Obligations.NttRoundTrip : Prop :=
  ∀ (k : Nat) (e : Entry) (a d d' : Bank) (s : State), entry? k = some e → e.nttOk = true → s.mem.ready e a →
    ∃ s₁ s₂, exec (.nttf k d a) s = .next s₁ ∧ exec (.ntti k d' d) s₁ = .next s₂ ∧ s₂.err = s.err ∧ s₂.errMulti = s.errMulti ∧
      s₂.errCode = s.errCode ∧
      ∀ j, j < e.dim → s₂.mem.bankWord d' j = some (BitVec.ofNat 64 (s.mem.elem e a j))

/-- 44_ntt.md R193 item 2 through the command sequence of 30_encoding.md R101 (RINGMUL): the four commands give the
negacyclic product of two different banks, with no error logged. -/
def Obligations.RingMultiplication : Prop :=
  ∀ (k : Nat) (e : Entry) (a b d : Bank) (s : State), entry? k = some e → e.nttOk = true → a ≠ b →
    s.mem.ready e a → s.mem.ready e b →
    ∃ s₁ s₂ s₃ s₄, exec (.nttf k a a) s = .next s₁ ∧ exec (.nttf k b b) s₁ = .next s₂ ∧
      exec (.pwmul k d a b) s₂ = .next s₃ ∧ exec (.ntti k d d) s₃ = .next s₄ ∧ s₄.err = s.err ∧ s₄.errMulti = s.errMulti ∧
      s₄.errCode = s.errCode ∧
      ∀ r, r < e.dim →
        s₄.mem.bankWord d r = some (BitVec.ofNat 64 (negacyclic e (s.mem.elem e a) (s.mem.elem e b) r))

/-- 60_exceptions.md R217 and 44_ntt.md R190, R192: a source word out of range makes NTTF or NTTI log OPERAND_RANGE and
leave the destination words UNINIT; no other word changes. -/
def Obligations.NttOutOfRangeLeavesDestinationUninit : Prop :=
  ∀ (k : Nat) (e : Entry) (d sa : Bank) (s : State) (i : Instr), i = .nttf k d sa ∨ i = .ntti k d sa →
    entry? k = some e → e.nttOk = true → s.mem.filled e sa → s.mem.outOfRange e sa →
    ∃ m : Memory, exec i s = .next (State.afterError { s with mem := m } .operandRange) ∧
      (∀ j, j < e.dim → m.bankWord d j = none) ∧ s.mem.sameOutside m d e.dim

/-- 60_exceptions.md R217 and 41_pointwise.md R140: the same for PWMUL and either source. -/
def Obligations.PwmulOutOfRangeLeavesDestinationUninit : Prop :=
  ∀ (k : Nat) (e : Entry) (d sa sb : Bank) (s : State), entry? k = some e → s.mem.filled e sa → s.mem.filled e sb →
    (s.mem.outOfRange e sa ∨ s.mem.outOfRange e sb) →
    ∃ m : Memory, exec (.pwmul k d sa sb) s = .next (State.afterError { s with mem := m } .operandRange) ∧
      (∀ j, j < e.dim → m.bankWord d j = none) ∧ s.mem.sameOutside m d e.dim

/-- 60_exceptions.md R232: a vector command past Precheck with an UNINIT source word completes. It records UNINIT_READ,
OPERAND_RANGE may or may not be logged, and only words `0 .. DIM_k - 1` of bank D may change; or a source word is out of
range as well and the command ends there with OPERAND_RANGE and R217's UNINIT words (assumption 3). R232 leaves the outcome
unconstrained: that the command completes as every other and changes nothing but the words of D, the log and the recorded
fault is the model's choice (assumption 16). -/
def Obligations.UninitSourceRecordsFaultAndCompletes : Prop :=
  ∀ (k : Nat) (e : Entry) (d sa sb : Bank) (s : State) (i : Instr),
    i = .nttf k d sa ∨ i = .ntti k d sa ∨ i = .pwmul k d sa sb →
    entry? k = some e → (i.needsRoot = true → e.nttOk = true) →
    (∃ b j, b ∈ i.sources ∧ j < e.dim ∧ s.mem.bankWord b j = none) →
    ∃ (m : Memory) (f : Nat), s.mem.sameOutside m d e.dim ∧
      (exec i s = .next (State.completed { s with mem := m, free := f, uninitRead := true }) ∨
        exec i s = .next (State.afterError { s with mem := m, free := f, uninitRead := true } .operandRange) ∨
        ((∃ b, b ∈ i.sources ∧ s.mem.outOfRange e b) ∧ (∀ j, j < e.dim → m.bankWord d j = none) ∧
          exec i s = .next (State.afterError { s with mem := m } .operandRange)))

/-- 60_exceptions.md R232: a command records UNINIT_READ only when it is a vector command, runs past Precheck, and a word
of a source below `DIM_k` is UNINIT. -/
def Obligations.UninitFaultOnlyFromUninitSource : Prop :=
  ∀ (i : Instr) (s t : State), exec i s = .next t → s.uninitRead = false → t.uninitRead = true →
    ∃ k e b j, i.cfg? = some k ∧ entry? k = some e ∧ b ∈ i.sources ∧ j < e.dim ∧ s.mem.bankWord b j = none

/-! ### Frames and whole-machine rules -/

/-- 10_state.md R29, R35; 60_exceptions.md R216, R217: what no command changes, and which commands may change RES1, RES0
and the banks. That it holds after UNINIT_READ too, and the model's own fields in it, are the model's choice (assumptions 1,
4, 7 and 16). -/
def Obligations.CommandsChangeOnlyTheirResults : Prop :=
  ∀ (i : Instr) (s t : State), exec i s = .next t →
    t.doneIe = s.doneIe ∧ t.errIe = s.errIe ∧ t.cmd = s.cmd ∧ t.opa = s.opa ∧ t.opb = s.opb ∧ t.opt = s.opt ∧
      t.agenda = s.agenda ∧ t.resp = s.resp ∧ t.done = true ∧ t.phase = .idle ∧
      (i.isButterfly = false → t.res1 = s.res1) ∧
      (i = .nop ∨ i.isVector = true → t.res0 = s.res0) ∧
      (i.isVector = false → (∀ a, t.mem.readByte a = s.mem.readByte a) ∧ t.free = s.free) ∧
      ((t.err = s.err ∧ t.errMulti = s.errMulti ∧ t.errCode = s.errCode) ∨
        (t.res0 = s.res0 ∧ t.res1 = s.res1 ∧ t.err = true ∧ t.errMulti = (s.errMulti || s.err) ∧
          (s.err = true → t.errCode = s.errCode)))

/-- 10_state.md R27, 44_ntt.md R195: a vector command never changes a byte outside words `0 .. DIM_k - 1` of its
destination bank, whatever its outcome; after UNINIT_READ by assumption 16. -/
def Obligations.VectorCommandsWriteOnlyDestination : Prop :=
  ∀ (k : Nat) (d sa sb : Bank) (i : Instr) (s t : State),
    i = .nttf k d sa ∨ i = .ntti k d sa ∨ i = .pwmul k d sa sb → exec i s = .next t →
    (∀ e, entry? k = some e → s.mem.sameOutside t.mem d e.dim) ∧ (entry? k = none → t.mem = s.mem)

/-- 00_scope.md R17: every field element a command writes is canonical for its entry: RES0, RES1, and every bank word that
changed, where no UNINIT_READ has been recorded. -/
def Obligations.CommandOutputsAreCanonical : Prop :=
  ∀ (i : Instr) (k : Nat) (e : Entry) (s t : State), i.cfg? = some k → entry? k = some e → exec i s = .next t →
    (t.res0 = s.res0 ∨ t.res0.toNat < e.q) ∧ (t.res1 = s.res1 ∨ t.res1.toNat < e.q) ∧
      (t.uninitRead = false → ∀ b j w, j < 512 → t.mem.bankWord b j = some w →
        s.mem.bankWord b j = some w ∨ w.toNat < e.q)

/-- 60_exceptions.md R218, R223: ERR, once set, is cleared by nothing but a write of 1 to STATUS bit 2 or a reset, and
until then ERR_CODE keeps its value. -/
def Obligations.ErrIsStickyUntilAcknowledged : Prop :=
  ∀ s t : State, step s = .next t → s.err = true → s.turn.isReset = false →
    (∀ op, s.turn = .host op → op.acksBit 2 = false) → t.err = true ∧ t.errCode = s.errCode

/-- 10_state.md R24: DONE is set by nothing but the completion of a command, and cleared by nothing but a write of 1, the
acceptance of a command and a reset. -/
def Obligations.DoneChangesOnlyAsStated : Prop :=
  ∀ s t : State, step s = .next t →
    (s.done = false → t.done = true → s.busy = true ∧ s.turn = .core) ∧
    (s.done = true → t.done = false →
      s.turn.isReset = true ∨
        ∃ op, s.turn = .host op ∧ (op.acksBit 1 = true ∨ (op.writesCmd = true ∧ s.busy = false)))

/-- 10_state.md R24: BUSY is set by nothing but the acceptance of a command, and cleared by nothing but completion and a
reset. -/
def Obligations.BusyChangesOnlyAsStated : Prop :=
  ∀ s t : State, step s = .next t →
    (s.busy = false → t.busy = true → ∃ op, s.turn = .host op ∧ op.writesCmd = true) ∧
    (s.busy = true → t.busy = false → s.turn = .core ∨ s.turn.isReset = true)

/-- 60_exceptions.md R232: the recorded fault is never cleared. -/
def Obligations.RecordedFaultIsNeverCleared : Prop :=
  ∀ s t : State, step s = .next t → s.uninitRead = true → t.uninitRead = true

/-- The invariant of the machine is kept by every step from every state that meets it: the canonical form of the banks,
whole words inside the bank windows only, no ERR_CODE without ERR (10_state.md R24), CMD the running command and DONE 0
while BUSY. -/
def Obligations.StepKeepsInvariant : Prop := ∀ s t : State, s.Inv → step s = .next t → t.Inv

/-! ### The host bus -/

/-- 20_memory.md R66: an access the block does not admit gets SLVERR, a read of it data 0, and nothing else changes; and
every other access is OK. -/
def Obligations.SlverrExactlyWhereNotAdmitted : Prop :=
  ∀ (s : State) (op : HostOp),
    (op.notAdmitted →
      s.hostStep op =
        { s with resp := some ⟨true, match op with | .read _ _ => some 0 | .write _ _ _ => none⟩ }) ∧
    (¬ op.notAdmitted → ∃ data, (s.hostStep op).resp = some ⟨false, data⟩)

/-- 20_memory.md R68: no read changes any state of the block; only the host's response and the count of free values move
(assumptions 1 and 7). -/
def Obligations.ReadsHaveNoSideEffect : Prop :=
  ∀ (s : State) (a : Addr) (size : Nat), ∃ r f, s.hostStep (.read a size) = { s with resp := some r, free := f }

/-- 20_memory.md R63, R70: a read of a register returns its current value, busy or not. -/
def Obligations.RegisterReadsReturnCurrentValue : Prop :=
  ∀ (s : State) (a : Addr) (v : Word),
    (a, v) ∈ ([(0x00, 0x4C41524B00070001), (0x08, 0x0000004002000404), (0x10, s.ctrlWord), (0x18, s.statusWord),
      (0x20, s.cmd), (0x28, s.opa), (0x30, s.opb), (0x38, s.opt), (0x40, s.res0), (0x48, s.res1)] : List (Addr × Word)) →
    s.hostStep (.read a 8) = { s with resp := some ⟨false, some v⟩ }

/-- 10_state.md R30, R31: the configuration registers, by their addresses and the values the tables give. -/
def Obligations.ConfigurationRegistersHoldTheTable : Prop :=
  ∀ (s : State) (a : Addr) (v : Word),
    (a, v) ∈ ([(0x100, 3329), (0x108, 0x0810), (0x110, 0), (0x118, 0),
      (0x120, 12289), (0x128, 0x00010910), (0x130, 10302), (0x138, 12265),
      (0x140, 8380417), (0x148, 0x00010820), (0x150, 1921994), (0x158, 8347681),
      (0x160, 0xFFFFFFFF00000001), (0x168, 0x00030940), (0x170, 0x9D8F2AD78BFED972), (0x178, 0xFF7FFFFF00800001)] :
      List (Addr × Word)) →
    s.hostStep (.read a 8) = { s with resp := some ⟨false, some v⟩ }

/-- 20_memory.md R62, R64: a bank write while IDLE stores the word, byte `j` of it holding bits `8*j+7 : 8*j`, changes no
other byte, and reads back. -/
def Obligations.BankWriteStoresLittleEndianAndReadsBack : Prop :=
  ∀ (s : State) (b : Bank) (i : Nat) (v : Word), s.phase = .idle → i < 512 →
    let base := 0x10000 + 0x8000 * b.val + 8 * i
    let t := s.hostStep (.write (BitVec.ofNat 18 base) 8 v)
    (∃ m, t = { s with mem := m, resp := some ⟨false, none⟩ }) ∧
      (∀ j, j < 8 → t.mem.readByte (base + j) = some (v.extractLsb' (8 * j) 8)) ∧
      (∀ x, x < base ∨ base + 8 ≤ x → t.mem.readByte x = s.mem.readByte x) ∧
      (t.hostStep (.read (BitVec.ofNat 18 base) 8)).resp = some ⟨false, some v⟩

/-- 10_state.md R26: a write of an operand register while IDLE stores any 64-bit value and changes nothing else. -/
def Obligations.OperandWriteWhileIdleStores : Prop :=
  ∀ (s : State) (v : Word), s.phase = .idle →
    s.hostStep (.write 0x28 8 v) = { s with opa := v, resp := some ⟨false, none⟩ } ∧
    s.hostStep (.write 0x30 8 v) = { s with opb := v, resp := some ⟨false, none⟩ } ∧
    s.hostStep (.write 0x38 8 v) = { s with opt := v, resp := some ⟨false, none⟩ }

/-- 10_state.md R24, 60_exceptions.md R223: a write to STATUS clears what its bits 1 and 2 name and changes nothing else,
and IRQ follows in the same transition. -/
def Obligations.StatusWriteAcknowledges : Prop :=
  ∀ (s : State) (v : Word),
    let t := s.hostStep (.write 0x18 8 v)
    t = { s with
          done := s.done && !v.getLsbD 1, err := s.err && !v.getLsbD 2
          errMulti := s.errMulti && !v.getLsbD 2, errCode := if v.getLsbD 2 then .none else s.errCode
          resp := some ⟨false, none⟩ } ∧
      t.irq = ((s.done && !v.getLsbD 1 && s.doneIe) || (s.err && !v.getLsbD 2 && s.errIe))

/-- 10_state.md R24, 60_exceptions.md R212: where each field of STATUS stands, the code of each error, and the reserved bits
as 0. -/
def Obligations.StatusWordLayout : Prop :=
  ∀ s : State,
    s.statusWord.getLsbD 0 = s.busy ∧ s.statusWord.getLsbD 1 = s.done ∧ s.statusWord.getLsbD 2 = s.err ∧
      s.statusWord.getLsbD 3 = s.errMulti ∧ (s.statusWord.extractLsb' 8 8).toNat = s.errCode.code ∧
      s.statusWord.extractLsb' 4 4 = 0 ∧ s.statusWord.extractLsb' 16 48 = 0 ∧
      s.errCode.code ≤ 8 ∧
      ∀ p ∈ ([(.none, 0x00), (.illegalOpc, 0x01), (.reservedField, 0x02), (.badCfg, 0x03), (.noRoot, 0x04),
          (.idxRange, 0x05), (.operandRange, 0x06), (.cmdBusy, 0x07), (.hostBusy, 0x08)] : List (ErrCode × BitVec 8)),
        s.errCode = p.1 → s.statusWord.extractLsb' 8 8 = p.2

/-- 20_memory.md R72: a step is exactly the next turn of the interleaving: the host's access or power-on reset. R216 and R242
give an idle core no enabled step: that its turn is then a step which only drops the turn, and the agenda itself, are the
model's choice (assumption 4). -/
def Obligations.StepIsNextTurn : Prop :=
  ∀ s : State,
    (∀ op, s.turn = .host op → step s = .next (s.dequeue.hostStep op)) ∧
    (s.turn = .core → s.phase = .idle → step s = .next s.dequeue) ∧
    (s.turn = .powerOn → step s = .next s.dequeue.powerOn)
end

