-- ==== Sys2Proof/Laws/State.lean ====
section
/-! SUPPORT. What each update of State does to each field, so that no proof unfolds a record update. -/

namespace Sys2Proof.Machine

section
variable (s : State)

@[simp] theorem accept_doneIe (v : Word) : (s.accept v).doneIe = s.doneIe := rfl
@[simp] theorem accept_errIe (v : Word) : (s.accept v).errIe = s.errIe := rfl
@[simp] theorem accept_done (v : Word) : (s.accept v).done = false := rfl
@[simp] theorem accept_err (v : Word) : (s.accept v).err = s.err := rfl
@[simp] theorem accept_errMulti (v : Word) : (s.accept v).errMulti = s.errMulti := rfl
@[simp] theorem accept_errCode (v : Word) : (s.accept v).errCode = s.errCode := rfl
@[simp] theorem accept_cmd (v : Word) : (s.accept v).cmd = v := rfl
@[simp] theorem accept_opa (v : Word) : (s.accept v).opa = s.opa := rfl
@[simp] theorem accept_opb (v : Word) : (s.accept v).opb = s.opb := rfl
@[simp] theorem accept_opt (v : Word) : (s.accept v).opt = s.opt := rfl
@[simp] theorem accept_res0 (v : Word) : (s.accept v).res0 = s.res0 := rfl
@[simp] theorem accept_res1 (v : Word) : (s.accept v).res1 = s.res1 := rfl
@[simp] theorem accept_mem (v : Word) : (s.accept v).mem = s.mem := rfl
@[simp] theorem accept_phase (v : Word) : (s.accept v).phase = .busy v := rfl
@[simp] theorem accept_uninitRead (v : Word) : (s.accept v).uninitRead = s.uninitRead := rfl
@[simp] theorem accept_free (v : Word) : (s.accept v).free = s.free := rfl
@[simp] theorem accept_agenda (v : Word) : (s.accept v).agenda = s.agenda := rfl
@[simp] theorem accept_resp (v : Word) : (s.accept v).resp = s.resp := rfl

@[simp] theorem finish_doneIe : s.finish.doneIe = s.doneIe := rfl
@[simp] theorem finish_errIe : s.finish.errIe = s.errIe := rfl
@[simp] theorem finish_done : s.finish.done = true := rfl
@[simp] theorem finish_err : s.finish.err = s.err := rfl
@[simp] theorem finish_errMulti : s.finish.errMulti = s.errMulti := rfl
@[simp] theorem finish_errCode : s.finish.errCode = s.errCode := rfl
@[simp] theorem finish_cmd : s.finish.cmd = s.cmd := rfl
@[simp] theorem finish_opa : s.finish.opa = s.opa := rfl
@[simp] theorem finish_opb : s.finish.opb = s.opb := rfl
@[simp] theorem finish_opt : s.finish.opt = s.opt := rfl
@[simp] theorem finish_res0 : s.finish.res0 = s.res0 := rfl
@[simp] theorem finish_res1 : s.finish.res1 = s.res1 := rfl
@[simp] theorem finish_mem : s.finish.mem = s.mem := rfl
@[simp] theorem finish_phase : s.finish.phase = .idle := rfl
@[simp] theorem finish_uninitRead : s.finish.uninitRead = s.uninitRead := rfl
@[simp] theorem finish_free : s.finish.free = s.free := rfl
@[simp] theorem finish_agenda : s.finish.agenda = s.agenda := rfl
@[simp] theorem finish_resp : s.finish.resp = s.resp := rfl

@[simp] theorem setRes0_doneIe (v : Nat) : (s.setRes0 v).doneIe = s.doneIe := rfl
@[simp] theorem setRes0_errIe (v : Nat) : (s.setRes0 v).errIe = s.errIe := rfl
@[simp] theorem setRes0_done (v : Nat) : (s.setRes0 v).done = s.done := rfl
@[simp] theorem setRes0_err (v : Nat) : (s.setRes0 v).err = s.err := rfl
@[simp] theorem setRes0_errMulti (v : Nat) : (s.setRes0 v).errMulti = s.errMulti := rfl
@[simp] theorem setRes0_errCode (v : Nat) : (s.setRes0 v).errCode = s.errCode := rfl
@[simp] theorem setRes0_cmd (v : Nat) : (s.setRes0 v).cmd = s.cmd := rfl
@[simp] theorem setRes0_opa (v : Nat) : (s.setRes0 v).opa = s.opa := rfl
@[simp] theorem setRes0_opb (v : Nat) : (s.setRes0 v).opb = s.opb := rfl
@[simp] theorem setRes0_opt (v : Nat) : (s.setRes0 v).opt = s.opt := rfl
@[simp] theorem setRes0_res0 (v : Nat) : (s.setRes0 v).res0 = zext64 v := rfl
@[simp] theorem setRes0_res1 (v : Nat) : (s.setRes0 v).res1 = s.res1 := rfl
@[simp] theorem setRes0_mem (v : Nat) : (s.setRes0 v).mem = s.mem := rfl
@[simp] theorem setRes0_phase (v : Nat) : (s.setRes0 v).phase = s.phase := rfl
@[simp] theorem setRes0_uninitRead (v : Nat) : (s.setRes0 v).uninitRead = s.uninitRead := rfl
@[simp] theorem setRes0_free (v : Nat) : (s.setRes0 v).free = s.free := rfl
@[simp] theorem setRes0_agenda (v : Nat) : (s.setRes0 v).agenda = s.agenda := rfl
@[simp] theorem setRes0_resp (v : Nat) : (s.setRes0 v).resp = s.resp := rfl

@[simp] theorem setRes_doneIe (v w : Nat) : (s.setRes v w).doneIe = s.doneIe := rfl
@[simp] theorem setRes_errIe (v w : Nat) : (s.setRes v w).errIe = s.errIe := rfl
@[simp] theorem setRes_done (v w : Nat) : (s.setRes v w).done = s.done := rfl
@[simp] theorem setRes_err (v w : Nat) : (s.setRes v w).err = s.err := rfl
@[simp] theorem setRes_errMulti (v w : Nat) : (s.setRes v w).errMulti = s.errMulti := rfl
@[simp] theorem setRes_errCode (v w : Nat) : (s.setRes v w).errCode = s.errCode := rfl
@[simp] theorem setRes_cmd (v w : Nat) : (s.setRes v w).cmd = s.cmd := rfl
@[simp] theorem setRes_opa (v w : Nat) : (s.setRes v w).opa = s.opa := rfl
@[simp] theorem setRes_opb (v w : Nat) : (s.setRes v w).opb = s.opb := rfl
@[simp] theorem setRes_opt (v w : Nat) : (s.setRes v w).opt = s.opt := rfl
@[simp] theorem setRes_res0 (v w : Nat) : (s.setRes v w).res0 = zext64 v := rfl
@[simp] theorem setRes_res1 (v w : Nat) : (s.setRes v w).res1 = zext64 w := rfl
@[simp] theorem setRes_mem (v w : Nat) : (s.setRes v w).mem = s.mem := rfl
@[simp] theorem setRes_phase (v w : Nat) : (s.setRes v w).phase = s.phase := rfl
@[simp] theorem setRes_uninitRead (v w : Nat) : (s.setRes v w).uninitRead = s.uninitRead := rfl
@[simp] theorem setRes_free (v w : Nat) : (s.setRes v w).free = s.free := rfl
@[simp] theorem setRes_agenda (v w : Nat) : (s.setRes v w).agenda = s.agenda := rfl
@[simp] theorem setRes_resp (v w : Nat) : (s.setRes v w).resp = s.resp := rfl

@[simp] theorem ackDone_doneIe : s.ackDone.doneIe = s.doneIe := rfl
@[simp] theorem ackDone_errIe : s.ackDone.errIe = s.errIe := rfl
@[simp] theorem ackDone_done : s.ackDone.done = false := rfl
@[simp] theorem ackDone_err : s.ackDone.err = s.err := rfl
@[simp] theorem ackDone_errMulti : s.ackDone.errMulti = s.errMulti := rfl
@[simp] theorem ackDone_errCode : s.ackDone.errCode = s.errCode := rfl
@[simp] theorem ackDone_cmd : s.ackDone.cmd = s.cmd := rfl
@[simp] theorem ackDone_opa : s.ackDone.opa = s.opa := rfl
@[simp] theorem ackDone_opb : s.ackDone.opb = s.opb := rfl
@[simp] theorem ackDone_opt : s.ackDone.opt = s.opt := rfl
@[simp] theorem ackDone_res0 : s.ackDone.res0 = s.res0 := rfl
@[simp] theorem ackDone_res1 : s.ackDone.res1 = s.res1 := rfl
@[simp] theorem ackDone_mem : s.ackDone.mem = s.mem := rfl
@[simp] theorem ackDone_phase : s.ackDone.phase = s.phase := rfl
@[simp] theorem ackDone_uninitRead : s.ackDone.uninitRead = s.uninitRead := rfl
@[simp] theorem ackDone_free : s.ackDone.free = s.free := rfl
@[simp] theorem ackDone_agenda : s.ackDone.agenda = s.agenda := rfl
@[simp] theorem ackDone_resp : s.ackDone.resp = s.resp := rfl

@[simp] theorem ackErr_doneIe : s.ackErr.doneIe = s.doneIe := rfl
@[simp] theorem ackErr_errIe : s.ackErr.errIe = s.errIe := rfl
@[simp] theorem ackErr_done : s.ackErr.done = s.done := rfl
@[simp] theorem ackErr_err : s.ackErr.err = false := rfl
@[simp] theorem ackErr_errMulti : s.ackErr.errMulti = false := rfl
@[simp] theorem ackErr_errCode : s.ackErr.errCode = .none := rfl
@[simp] theorem ackErr_cmd : s.ackErr.cmd = s.cmd := rfl
@[simp] theorem ackErr_opa : s.ackErr.opa = s.opa := rfl
@[simp] theorem ackErr_opb : s.ackErr.opb = s.opb := rfl
@[simp] theorem ackErr_opt : s.ackErr.opt = s.opt := rfl
@[simp] theorem ackErr_res0 : s.ackErr.res0 = s.res0 := rfl
@[simp] theorem ackErr_res1 : s.ackErr.res1 = s.res1 := rfl
@[simp] theorem ackErr_mem : s.ackErr.mem = s.mem := rfl
@[simp] theorem ackErr_phase : s.ackErr.phase = s.phase := rfl
@[simp] theorem ackErr_uninitRead : s.ackErr.uninitRead = s.uninitRead := rfl
@[simp] theorem ackErr_free : s.ackErr.free = s.free := rfl
@[simp] theorem ackErr_agenda : s.ackErr.agenda = s.agenda := rfl
@[simp] theorem ackErr_resp : s.ackErr.resp = s.resp := rfl

@[simp] theorem softReset_doneIe : s.softReset.doneIe = s.doneIe := rfl
@[simp] theorem softReset_errIe : s.softReset.errIe = s.errIe := rfl
@[simp] theorem softReset_done : s.softReset.done = false := rfl
@[simp] theorem softReset_err : s.softReset.err = false := rfl
@[simp] theorem softReset_errMulti : s.softReset.errMulti = false := rfl
@[simp] theorem softReset_errCode : s.softReset.errCode = .none := rfl
@[simp] theorem softReset_cmd : s.softReset.cmd = 0 := rfl
@[simp] theorem softReset_opa : s.softReset.opa = 0 := rfl
@[simp] theorem softReset_opb : s.softReset.opb = 0 := rfl
@[simp] theorem softReset_opt : s.softReset.opt = 0 := rfl
@[simp] theorem softReset_res0 : s.softReset.res0 = 0 := rfl
@[simp] theorem softReset_res1 : s.softReset.res1 = 0 := rfl
@[simp] theorem softReset_mem : s.softReset.mem = s.abortMem := rfl
@[simp] theorem softReset_phase : s.softReset.phase = .idle := rfl
@[simp] theorem softReset_uninitRead : s.softReset.uninitRead = s.uninitRead := rfl
@[simp] theorem softReset_free : s.softReset.free = s.free := rfl
@[simp] theorem softReset_agenda : s.softReset.agenda = s.agenda := rfl
@[simp] theorem softReset_resp : s.softReset.resp = s.resp := rfl

@[simp] theorem powerOn_doneIe : s.powerOn.doneIe = false := rfl
@[simp] theorem powerOn_errIe : s.powerOn.errIe = false := rfl
@[simp] theorem powerOn_done : s.powerOn.done = false := rfl
@[simp] theorem powerOn_err : s.powerOn.err = false := rfl
@[simp] theorem powerOn_errMulti : s.powerOn.errMulti = false := rfl
@[simp] theorem powerOn_errCode : s.powerOn.errCode = .none := rfl
@[simp] theorem powerOn_cmd : s.powerOn.cmd = 0 := rfl
@[simp] theorem powerOn_opa : s.powerOn.opa = 0 := rfl
@[simp] theorem powerOn_opb : s.powerOn.opb = 0 := rfl
@[simp] theorem powerOn_opt : s.powerOn.opt = 0 := rfl
@[simp] theorem powerOn_res0 : s.powerOn.res0 = 0 := rfl
@[simp] theorem powerOn_res1 : s.powerOn.res1 = 0 := rfl
@[simp] theorem powerOn_mem : s.powerOn.mem = [] := rfl
@[simp] theorem powerOn_phase : s.powerOn.phase = .idle := rfl
@[simp] theorem powerOn_uninitRead : s.powerOn.uninitRead = s.uninitRead := rfl
@[simp] theorem powerOn_free : s.powerOn.free = s.free := rfl
@[simp] theorem powerOn_agenda : s.powerOn.agenda = s.agenda := rfl
@[simp] theorem powerOn_resp : s.powerOn.resp = none := rfl

@[simp] theorem answer_doneIe (v : Word) : (s.answer v).doneIe = s.doneIe := rfl
@[simp] theorem answer_errIe (v : Word) : (s.answer v).errIe = s.errIe := rfl
@[simp] theorem answer_done (v : Word) : (s.answer v).done = s.done := rfl
@[simp] theorem answer_err (v : Word) : (s.answer v).err = s.err := rfl
@[simp] theorem answer_errMulti (v : Word) : (s.answer v).errMulti = s.errMulti := rfl
@[simp] theorem answer_errCode (v : Word) : (s.answer v).errCode = s.errCode := rfl
@[simp] theorem answer_cmd (v : Word) : (s.answer v).cmd = s.cmd := rfl
@[simp] theorem answer_opa (v : Word) : (s.answer v).opa = s.opa := rfl
@[simp] theorem answer_opb (v : Word) : (s.answer v).opb = s.opb := rfl
@[simp] theorem answer_opt (v : Word) : (s.answer v).opt = s.opt := rfl
@[simp] theorem answer_res0 (v : Word) : (s.answer v).res0 = s.res0 := rfl
@[simp] theorem answer_res1 (v : Word) : (s.answer v).res1 = s.res1 := rfl
@[simp] theorem answer_mem (v : Word) : (s.answer v).mem = s.mem := rfl
@[simp] theorem answer_phase (v : Word) : (s.answer v).phase = s.phase := rfl
@[simp] theorem answer_uninitRead (v : Word) : (s.answer v).uninitRead = s.uninitRead := rfl
@[simp] theorem answer_free (v : Word) : (s.answer v).free = s.free := rfl
@[simp] theorem answer_agenda (v : Word) : (s.answer v).agenda = s.agenda := rfl
@[simp] theorem answer_resp (v : Word) : (s.answer v).resp = some ⟨false, some v⟩ := rfl

@[simp] theorem answerFree_doneIe : s.answerFree.doneIe = s.doneIe := rfl
@[simp] theorem answerFree_errIe : s.answerFree.errIe = s.errIe := rfl
@[simp] theorem answerFree_done : s.answerFree.done = s.done := rfl
@[simp] theorem answerFree_err : s.answerFree.err = s.err := rfl
@[simp] theorem answerFree_errMulti : s.answerFree.errMulti = s.errMulti := rfl
@[simp] theorem answerFree_errCode : s.answerFree.errCode = s.errCode := rfl
@[simp] theorem answerFree_cmd : s.answerFree.cmd = s.cmd := rfl
@[simp] theorem answerFree_opa : s.answerFree.opa = s.opa := rfl
@[simp] theorem answerFree_opb : s.answerFree.opb = s.opb := rfl
@[simp] theorem answerFree_opt : s.answerFree.opt = s.opt := rfl
@[simp] theorem answerFree_res0 : s.answerFree.res0 = s.res0 := rfl
@[simp] theorem answerFree_res1 : s.answerFree.res1 = s.res1 := rfl
@[simp] theorem answerFree_mem : s.answerFree.mem = s.mem := rfl
@[simp] theorem answerFree_phase : s.answerFree.phase = s.phase := rfl
@[simp] theorem answerFree_uninitRead : s.answerFree.uninitRead = s.uninitRead := rfl
@[simp] theorem answerFree_free : s.answerFree.free = s.free + 1 := rfl
@[simp] theorem answerFree_agenda : s.answerFree.agenda = s.agenda := rfl
@[simp] theorem answerFree_resp : s.answerFree.resp = some ⟨false, some (Config.freeWord s.free)⟩ := rfl

@[simp] theorem readError_doneIe : s.readError.doneIe = s.doneIe := rfl
@[simp] theorem readError_errIe : s.readError.errIe = s.errIe := rfl
@[simp] theorem readError_done : s.readError.done = s.done := rfl
@[simp] theorem readError_err : s.readError.err = s.err := rfl
@[simp] theorem readError_errMulti : s.readError.errMulti = s.errMulti := rfl
@[simp] theorem readError_errCode : s.readError.errCode = s.errCode := rfl
@[simp] theorem readError_cmd : s.readError.cmd = s.cmd := rfl
@[simp] theorem readError_opa : s.readError.opa = s.opa := rfl
@[simp] theorem readError_opb : s.readError.opb = s.opb := rfl
@[simp] theorem readError_opt : s.readError.opt = s.opt := rfl
@[simp] theorem readError_res0 : s.readError.res0 = s.res0 := rfl
@[simp] theorem readError_res1 : s.readError.res1 = s.res1 := rfl
@[simp] theorem readError_mem : s.readError.mem = s.mem := rfl
@[simp] theorem readError_phase : s.readError.phase = s.phase := rfl
@[simp] theorem readError_uninitRead : s.readError.uninitRead = s.uninitRead := rfl
@[simp] theorem readError_free : s.readError.free = s.free := rfl
@[simp] theorem readError_agenda : s.readError.agenda = s.agenda := rfl
@[simp] theorem readError_resp : s.readError.resp = some ⟨true, some 0⟩ := rfl

@[simp] theorem writeError_doneIe : s.writeError.doneIe = s.doneIe := rfl
@[simp] theorem writeError_errIe : s.writeError.errIe = s.errIe := rfl
@[simp] theorem writeError_done : s.writeError.done = s.done := rfl
@[simp] theorem writeError_err : s.writeError.err = s.err := rfl
@[simp] theorem writeError_errMulti : s.writeError.errMulti = s.errMulti := rfl
@[simp] theorem writeError_errCode : s.writeError.errCode = s.errCode := rfl
@[simp] theorem writeError_cmd : s.writeError.cmd = s.cmd := rfl
@[simp] theorem writeError_opa : s.writeError.opa = s.opa := rfl
@[simp] theorem writeError_opb : s.writeError.opb = s.opb := rfl
@[simp] theorem writeError_opt : s.writeError.opt = s.opt := rfl
@[simp] theorem writeError_res0 : s.writeError.res0 = s.res0 := rfl
@[simp] theorem writeError_res1 : s.writeError.res1 = s.res1 := rfl
@[simp] theorem writeError_mem : s.writeError.mem = s.mem := rfl
@[simp] theorem writeError_phase : s.writeError.phase = s.phase := rfl
@[simp] theorem writeError_uninitRead : s.writeError.uninitRead = s.uninitRead := rfl
@[simp] theorem writeError_free : s.writeError.free = s.free := rfl
@[simp] theorem writeError_agenda : s.writeError.agenda = s.agenda := rfl
@[simp] theorem writeError_resp : s.writeError.resp = some ⟨true, none⟩ := rfl

@[simp] theorem writeOk_doneIe : s.writeOk.doneIe = s.doneIe := rfl
@[simp] theorem writeOk_errIe : s.writeOk.errIe = s.errIe := rfl
@[simp] theorem writeOk_done : s.writeOk.done = s.done := rfl
@[simp] theorem writeOk_err : s.writeOk.err = s.err := rfl
@[simp] theorem writeOk_errMulti : s.writeOk.errMulti = s.errMulti := rfl
@[simp] theorem writeOk_errCode : s.writeOk.errCode = s.errCode := rfl
@[simp] theorem writeOk_cmd : s.writeOk.cmd = s.cmd := rfl
@[simp] theorem writeOk_opa : s.writeOk.opa = s.opa := rfl
@[simp] theorem writeOk_opb : s.writeOk.opb = s.opb := rfl
@[simp] theorem writeOk_opt : s.writeOk.opt = s.opt := rfl
@[simp] theorem writeOk_res0 : s.writeOk.res0 = s.res0 := rfl
@[simp] theorem writeOk_res1 : s.writeOk.res1 = s.res1 := rfl
@[simp] theorem writeOk_mem : s.writeOk.mem = s.mem := rfl
@[simp] theorem writeOk_phase : s.writeOk.phase = s.phase := rfl
@[simp] theorem writeOk_uninitRead : s.writeOk.uninitRead = s.uninitRead := rfl
@[simp] theorem writeOk_free : s.writeOk.free = s.free := rfl
@[simp] theorem writeOk_agenda : s.writeOk.agenda = s.agenda := rfl
@[simp] theorem writeOk_resp : s.writeOk.resp = some ⟨false, none⟩ := rfl

@[simp] theorem completed_doneIe : s.completed.doneIe = s.doneIe := rfl
@[simp] theorem completed_errIe : s.completed.errIe = s.errIe := rfl
@[simp] theorem completed_done : s.completed.done = true := rfl
@[simp] theorem completed_err : s.completed.err = s.err := rfl
@[simp] theorem completed_errMulti : s.completed.errMulti = s.errMulti := rfl
@[simp] theorem completed_errCode : s.completed.errCode = s.errCode := rfl
@[simp] theorem completed_cmd : s.completed.cmd = s.cmd := rfl
@[simp] theorem completed_opa : s.completed.opa = s.opa := rfl
@[simp] theorem completed_opb : s.completed.opb = s.opb := rfl
@[simp] theorem completed_opt : s.completed.opt = s.opt := rfl
@[simp] theorem completed_res0 : s.completed.res0 = s.res0 := rfl
@[simp] theorem completed_res1 : s.completed.res1 = s.res1 := rfl
@[simp] theorem completed_mem : s.completed.mem = s.mem := rfl
@[simp] theorem completed_phase : s.completed.phase = .idle := rfl
@[simp] theorem completed_uninitRead : s.completed.uninitRead = s.uninitRead := rfl
@[simp] theorem completed_free : s.completed.free = s.free := rfl
@[simp] theorem completed_agenda : s.completed.agenda = s.agenda := rfl
@[simp] theorem completed_resp : s.completed.resp = s.resp := rfl

@[simp] theorem logged_doneIe (e : ErrCode) : (s.logged e).doneIe = s.doneIe := rfl
@[simp] theorem logged_errIe (e : ErrCode) : (s.logged e).errIe = s.errIe := rfl
@[simp] theorem logged_done (e : ErrCode) : (s.logged e).done = s.done := rfl
@[simp] theorem logged_err (e : ErrCode) : (s.logged e).err = true := rfl
@[simp] theorem logged_errMulti (e : ErrCode) : (s.logged e).errMulti = (s.errMulti || s.err) := rfl
@[simp] theorem logged_errCode (e : ErrCode) : (s.logged e).errCode = (if s.err then s.errCode else e) := rfl
@[simp] theorem logged_cmd (e : ErrCode) : (s.logged e).cmd = s.cmd := rfl
@[simp] theorem logged_opa (e : ErrCode) : (s.logged e).opa = s.opa := rfl
@[simp] theorem logged_opb (e : ErrCode) : (s.logged e).opb = s.opb := rfl
@[simp] theorem logged_opt (e : ErrCode) : (s.logged e).opt = s.opt := rfl
@[simp] theorem logged_res0 (e : ErrCode) : (s.logged e).res0 = s.res0 := rfl
@[simp] theorem logged_res1 (e : ErrCode) : (s.logged e).res1 = s.res1 := rfl
@[simp] theorem logged_mem (e : ErrCode) : (s.logged e).mem = s.mem := rfl
@[simp] theorem logged_phase (e : ErrCode) : (s.logged e).phase = s.phase := rfl
@[simp] theorem logged_uninitRead (e : ErrCode) : (s.logged e).uninitRead = s.uninitRead := rfl
@[simp] theorem logged_free (e : ErrCode) : (s.logged e).free = s.free := rfl
@[simp] theorem logged_agenda (e : ErrCode) : (s.logged e).agenda = s.agenda := rfl
@[simp] theorem logged_resp (e : ErrCode) : (s.logged e).resp = s.resp := rfl

@[simp] theorem dequeue_doneIe : s.dequeue.doneIe = s.doneIe := rfl
@[simp] theorem dequeue_errIe : s.dequeue.errIe = s.errIe := rfl
@[simp] theorem dequeue_done : s.dequeue.done = s.done := rfl
@[simp] theorem dequeue_err : s.dequeue.err = s.err := rfl
@[simp] theorem dequeue_errMulti : s.dequeue.errMulti = s.errMulti := rfl
@[simp] theorem dequeue_errCode : s.dequeue.errCode = s.errCode := rfl
@[simp] theorem dequeue_cmd : s.dequeue.cmd = s.cmd := rfl
@[simp] theorem dequeue_opa : s.dequeue.opa = s.opa := rfl
@[simp] theorem dequeue_opb : s.dequeue.opb = s.opb := rfl
@[simp] theorem dequeue_opt : s.dequeue.opt = s.opt := rfl
@[simp] theorem dequeue_res0 : s.dequeue.res0 = s.res0 := rfl
@[simp] theorem dequeue_res1 : s.dequeue.res1 = s.res1 := rfl
@[simp] theorem dequeue_mem : s.dequeue.mem = s.mem := rfl
@[simp] theorem dequeue_phase : s.dequeue.phase = s.phase := rfl
@[simp] theorem dequeue_uninitRead : s.dequeue.uninitRead = s.uninitRead := rfl
@[simp] theorem dequeue_free : s.dequeue.free = s.free := rfl
@[simp] theorem dequeue_agenda : s.dequeue.agenda = s.agenda.tail := rfl
@[simp] theorem dequeue_resp : s.dequeue.resp = s.resp := rfl

end

end Sys2Proof.Machine
end

