-- ==== Sys2Proof/Laws/Memory.lean ====
section
/-! SUPPORT. The laws of the bank memory: what a byte, a word and a bank word read as after `store` and `clear`, and that
both keep the canonical form. -/

namespace Sys2Proof.Machine

/-! ### Bytes -/

theorem readByte_append (m n : Memory) (x : Nat) :
    Memory.readByte (m ++ n) x = (m.readByte x).or (n.readByte x) := by
  induction m with
  | nil => simp [Memory.readByte]
  | cons c m ih =>
    simp only [List.cons_append, Memory.readByte]
    split
    · simp
    · exact ih

theorem readByte_filter (p : Nat → Bool) (m : Memory) (x : Nat) :
    Memory.readByte (m.filter (fun c => p c.1)) x = if p x then m.readByte x else none := by
  induction m with
  | nil => simp [Memory.readByte]
  | cons c m ih =>
    obtain ⟨a, b⟩ := c
    by_cases hx : x = a
    · subst hx
      by_cases hp : p x <;> simp [hp, Memory.readByte, ih]
    · by_cases hp : p a <;> simp [hp, Memory.readByte, hx, ih]

theorem readByte_cellsAt (bs : List Byte) (a x : Nat) :
    Memory.readByte (cellsAt a bs) x = if a ≤ x then bs[x - a]? else none := by
  induction bs generalizing a with
  | nil => simp [cellsAt, Memory.readByte]
  | cons b bs ih =>
    simp only [cellsAt, Memory.readByte, ih]
    by_cases hx : x = a
    · simp [hx]
    · by_cases h : a ≤ x
      · obtain ⟨d, rfl⟩ : ∃ d, x = a + 1 + d := ⟨x - a - 1, by omega⟩
        have h1 : a + 1 + d - a = d + 1 := by omega
        simp [hx, h, h1]
      · have h2 : ¬ a + 1 ≤ x := by omega
        simp [hx, h, h2]

/-- A byte after a store: the stored byte in the stored range, the old byte elsewhere. -/
theorem readByte_store (m : Memory) (a : Nat) (bs : List Byte) (x : Nat) :
    (m.store a bs).readByte x = if a ≤ x ∧ x < a + bs.length then bs[x - a]? else m.readByte x := by
  simp only [Memory.store, readByte_append, readByte_cellsAt,
    readByte_filter (fun k => decide (k < a)), readByte_filter (fun k => decide (a + bs.length ≤ k))]
  by_cases h1 : x < a
  · have h2 : ¬ a + bs.length ≤ x := by omega
    have h3 : ¬ a ≤ x := by omega
    simp [h1, h2, h3]
  · by_cases h4 : x < a + bs.length
    · have h5 : a ≤ x := by omega
      have h6 : ¬ a + bs.length ≤ x := by omega
      simp [h1, h4, h5, h6]
    · have h5 : a ≤ x := by omega
      have h6 : a + bs.length ≤ x := by omega
      have h7 : bs.length ≤ x - a := by omega
      simp [h1, h4, h5, h6, List.getElem?_eq_none h7]

/-- A byte after a clear: none in the cleared range, the old byte elsewhere. -/
theorem readByte_clear (m : Memory) (a len x : Nat) :
    (m.clear a len).readByte x = if a ≤ x ∧ x < a + len then none else m.readByte x := by
  rw [Memory.clear, readByte_filter (fun k => decide (k < a) || decide (a + len ≤ k))]
  by_cases h1 : x < a
  · have h3 : ¬ a ≤ x := by omega
    simp [h1, h3]
  · by_cases h4 : x < a + len
    · have h5 : a ≤ x := by omega
      simp [h1, h4, h5]
    · simp [h1, h4]

/-! ### The canonical form -/

theorem rising_mono {lo lo' : Nat} {m : Memory} (h : lo' ≤ lo) (hm : Memory.rising lo m = true) :
    Memory.rising lo' m = true := by
  cases m with
  | nil => rfl
  | cons c m =>
    simp only [Memory.rising, Bool.and_eq_true, decide_eq_true_eq] at hm ⊢
    exact ⟨h.trans hm.1, hm.2⟩

/-- A rising list cut down to some of its cells rises. -/
theorem rising_filter (p : Host.Cell → Bool) {lo : Nat} {m : Memory} (hm : Memory.rising lo m = true) :
    Memory.rising lo (m.filter p) = true := by
  induction m generalizing lo with
  | nil => rfl
  | cons c m ih =>
    simp only [Memory.rising, Bool.and_eq_true, decide_eq_true_eq] at hm
    by_cases hp : p c
    · simp [hp, Memory.rising, hm.1, ih hm.2]
    · simp only [hp, List.filter_cons_of_neg, Bool.false_eq_true, not_false_eq_true]
      exact ih (rising_mono (by omega) hm.2)

/-- A rising list of addresses from `a` on rises from `a`. -/
theorem rising_raise {a lo : Nat} {m : Memory} (h : ∀ c ∈ m, a ≤ c.1) (hm : Memory.rising lo m = true) :
    Memory.rising a m = true := by
  cases m with
  | nil => rfl
  | cons c m =>
    simp only [Memory.rising, Bool.and_eq_true, decide_eq_true_eq] at hm ⊢
    exact ⟨h c (by simp), hm.2⟩

/-- Two rising lists, the first wholly below `mid` and the second from `mid` on, join to a rising list. -/
theorem rising_append {lo mid : Nat} {m n : Memory} (hm : Memory.rising lo m = true) (hlt : ∀ c ∈ m, c.1 < mid)
    (hle : lo ≤ mid) (hn : Memory.rising mid n = true) : Memory.rising lo (m ++ n) = true := by
  induction m generalizing lo with
  | nil => exact rising_mono hle hn
  | cons c m ih =>
    simp only [List.cons_append, Memory.rising, Bool.and_eq_true, decide_eq_true_eq] at hm ⊢
    have hc := hlt c (by simp)
    exact ⟨hm.1, ih hm.2 (fun d hd => hlt d (by simp [hd])) (by omega)⟩

theorem rising_cellsAt (bs : List Byte) (a : Nat) : Memory.rising a (cellsAt a bs) = true := by
  induction bs generalizing a with
  | nil => rfl
  | cons b bs ih => simp [cellsAt, Memory.rising, ih]

theorem cellsAt_lt (bs : List Byte) (a : Nat) : ∀ c ∈ cellsAt a bs, c.1 < a + bs.length := by
  induction bs generalizing a with
  | nil => simp [cellsAt]
  | cons b bs ih =>
    intro c hc
    simp only [cellsAt, List.mem_cons] at hc
    rcases hc with rfl | hc
    · simp
    · have := ih (a + 1) c hc
      simp only [List.length_cons]
      omega

/-- Storing keeps the canonical form. -/
theorem wf_store {m : Memory} (h : m.wf = true) (a : Nat) (bs : List Byte) : (m.store a bs).wf = true := by
  unfold Memory.store Memory.wf
  rw [List.append_assoc]
  refine rising_append (mid := a) (rising_filter _ h) ?_ (Nat.zero_le a) ?_
  · intro c hc
    simpa using (List.mem_filter.1 hc).2
  · refine rising_append (mid := a + bs.length) (rising_cellsAt bs a) (cellsAt_lt bs a) (by omega) ?_
    refine rising_raise ?_ (rising_filter _ h)
    intro c hc
    simpa using (List.mem_filter.1 hc).2

/-- Making bytes UNINIT keeps the canonical form. -/
theorem wf_clear {m : Memory} (h : m.wf = true) (a len : Nat) : (m.clear a len).wf = true := rising_filter _ h

/-! ### Words -/

theorem allSome_map_congr {α β : Type} (f g : α → Option β) (l : List α) (h : ∀ x ∈ l, f x = g x) :
    allSome (l.map f) = allSome (l.map g) := by
  rw [List.map_congr_left h]

theorem allSome_map_some {α : Type} (l : List α) : allSome (l.map some) = some l := by
  induction l with
  | nil => rfl
  | cons x xs ih => simp [allSome, ih]

/-- A word is unchanged where its eight bytes are. -/
theorem readWord_congr {m m' : Memory} {a : Nat} (h : ∀ j, j < 8 → m'.readByte (a + j) = m.readByte (a + j)) :
    m'.readWord a = m.readWord a := by
  unfold Memory.readWord
  rw [allSome_map_congr _ (fun j => m.readByte (a + j)) _ (fun j hj => h j (List.mem_range.1 hj))]

/-- A word is UNINIT where its first byte holds no value. -/
theorem readWord_none {m : Memory} {a : Nat} (h : m.readByte a = none) : m.readWord a = none := by
  simp [Memory.readWord, List.range_succ_eq_map, h, allSome]

theorem byteOf_toNat (v : Word) (j : Nat) : (byteOf v j).toNat = v.toNat / 2 ^ (8 * j) % 256 := by
  simp [byteOf, BitVec.extractLsb'_toNat, Nat.shiftRight_eq_div_pow]

theorem bytesOf_eq (v : Word) :
    bytesOf v = [byteOf v 0, byteOf v 1, byteOf v 2, byteOf v 3, byteOf v 4, byteOf v 5, byteOf v 6, byteOf v 7] := rfl

theorem wordOfBytes_bytesOf (v : Word) : BitVec.ofNat 64 (wordOfBytes (bytesOf v)) = v := by
  apply BitVec.eq_of_toNat_eq
  have hv := v.isLt
  rw [bytesOf_eq]
  simp only [wordOfBytes, byteOf_toNat, BitVec.toNat_ofNat]
  norm_num at hv ⊢
  omega

/-- A word whose eight bytes are those of `v` reads as `v`. -/
theorem readWord_of_bytes {m : Memory} {a : Nat} {v : Word}
    (h : ∀ j, j < 8 → m.readByte (a + j) = some (byteOf v j)) : m.readWord a = some v := by
  unfold Memory.readWord
  rw [allSome_map_congr _ (fun j => some (byteOf v j)) _ (fun j hj => h j (List.mem_range.1 hj)),
    show (fun j => some (byteOf v j)) = some ∘ byteOf v from rfl, ← List.map_map, allSome_map_some]
  exact congrArg some (wordOfBytes_bytesOf v)

@[simp] theorem bytesOf_length (v : Word) : (bytesOf v).length = 8 := by simp [bytesOf]

@[simp] theorem flatMap_bytesOf_length (vs : List Word) : (vs.flatMap bytesOf).length = 8 * vs.length := by
  induction vs with
  | nil => rfl
  | cons v vs ih => simp [ih]; omega

/-- Byte `8*i + j` of consecutive words is byte `j` of word `i`. -/
theorem flatMap_bytesOf_getElem? (vs : List Word) (i j : Nat) (hj : j < 8) :
    (vs.flatMap bytesOf)[8 * i + j]? = vs[i]?.map (fun v => byteOf v j) := by
  induction vs generalizing i with
  | nil => simp
  | cons v vs ih =>
    cases i with
    | zero =>
      have hlt : 8 * 0 + j < (bytesOf v).length := by simp; omega
      rw [List.flatMap_cons, List.getElem?_append_left hlt]
      simp [bytesOf, hj]
    | succ i =>
      have h8 : 8 * (i + 1) + j = 8 + (8 * i + j) := by omega
      have hge : (bytesOf v).length ≤ 8 + (8 * i + j) := by simp
      rw [h8, List.flatMap_cons, List.getElem?_append_right hge, bytesOf_length, Nat.add_sub_cancel_left, ih]
      simp

/-- A byte after writing words. -/
theorem readByte_writeWords (m : Memory) (a : Nat) (vs : List Word) (x : Nat) :
    (m.writeWords a vs).readByte x =
      if a ≤ x ∧ x < a + 8 * vs.length then (vs.flatMap bytesOf)[x - a]? else m.readByte x := by
  rw [Memory.writeWords, readByte_store, flatMap_bytesOf_length]

/-- The words written read back. -/
theorem readWord_writeWords (m : Memory) (a : Nat) (vs : List Word) (i : Nat) (hi : i < vs.length) :
    (m.writeWords a vs).readWord (a + 8 * i) = some vs[i] := by
  apply readWord_of_bytes
  intro j hj
  have h1 : a ≤ a + 8 * i + j ∧ a + 8 * i + j < a + 8 * vs.length := by omega
  have h2 : a + 8 * i + j - a = 8 * i + j := by omega
  rw [readByte_writeWords, if_pos h1, h2, flatMap_bytesOf_getElem? vs i j hj]
  simp [hi]

/-! ### Banks -/

theorem bankAddr_eq (b : Bank) (i : Nat) : bankAddr b i = 0x10000 + 0x8000 * b.val + 8 * i := rfl

theorem bankAddr_add (b : Bank) (i : Nat) : bankAddr b i = bankAddr b 0 + 8 * i := by simp [bankAddr_eq]

theorem wf_writeWords {m : Memory} (h : m.wf = true) (a : Nat) (vs : List Word) : (m.writeWords a vs).wf = true :=
  wf_store h a _

theorem wf_setBank {m : Memory} (h : m.wf = true) (b : Bank) (vs : List Word) : (m.setBank b vs).wf = true :=
  wf_writeWords h _ _

theorem wf_setBankWord {m : Memory} (h : m.wf = true) (b : Bank) (i : Nat) (v : Word) :
    (m.setBankWord b i v).wf = true := wf_writeWords h _ _

theorem wf_uninitBank {m : Memory} (h : m.wf = true) (b : Bank) (n : Nat) : (m.uninitBank b n).wf = true :=
  wf_clear h _ _

theorem wf_reset : State.reset.mem.wf = true := rfl

/-- Only words `0 .. vs.length - 1` of bank `b` change when it is written. -/
theorem sameOutside_setBank (m : Memory) (b : Bank) (vs : List Word) :
    m.sameOutside (m.setBank b vs) b vs.length := by
  intro a ha
  rw [Memory.setBank, readByte_writeWords, if_neg]
  intro h
  exact ha (by rw [bankAddr_eq] at h; unfold inWords; omega)

/-- Only words `0 .. n-1` of bank `b` change when they become UNINIT. -/
theorem sameOutside_uninitBank (m : Memory) (b : Bank) (n : Nat) : m.sameOutside (m.uninitBank b n) b n := by
  intro a ha
  rw [Memory.uninitBank, readByte_clear, if_neg]
  intro h
  exact ha (by rw [bankAddr_eq] at h; unfold inWords; omega)

/-- The vector written to a bank reads back word by word. -/
theorem bankWord_setBank (m : Memory) (b : Bank) (vs : List Word) (i : Nat) (hi : i < vs.length) :
    (m.setBank b vs).bankWord b i = some vs[i] := by
  rw [Memory.bankWord, bankAddr_add, Memory.setBank, readWord_writeWords m _ vs i hi]

/-- The words made UNINIT hold no value. -/
theorem bankWord_uninitBank (m : Memory) (b : Bank) (n i : Nat) (hi : i < n) :
    (m.uninitBank b n).bankWord b i = none := by
  apply readWord_none
  rw [Memory.uninitBank, readByte_clear, if_pos]
  rw [bankAddr_eq, bankAddr_eq]
  omega

/-- A bank word outside the changed words is unchanged: another bank's, or one of a higher index. -/
theorem bankWord_of_sameOutside {m m' : Memory} {b : Bank} {n : Nat} (h : m.sameOutside m' b n) (hn : n ≤ 512)
    (c : Bank) (i : Nat) (hi : i < 512) (hd : c ≠ b ∨ n ≤ i) : m'.bankWord c i = m.bankWord c i := by
  apply readWord_congr
  intro j hj
  apply h
  rw [bankAddr_eq]
  unfold inWords
  rcases hd with hd | hd
  · have : c.val ≠ b.val := fun hv => hd (Fin.ext hv)
    omega
  · by_cases hv : c.val = b.val <;> omega

/-- Bytes of a word written into a bank (R62). -/
theorem readByte_setBankWord (m : Memory) (b : Bank) (i : Nat) (v : Word) (j : Nat) (hj : j < 8) :
    (m.setBankWord b i v).readByte (bankAddr b i + j) = some (byteOf v j) := by
  have h1 : bankAddr b i ≤ bankAddr b i + j ∧ bankAddr b i + j < bankAddr b i + 8 * [v].length := by simp; omega
  have h2 : bankAddr b i + j - bankAddr b i = 8 * 0 + j := by omega
  rw [Memory.setBankWord, readByte_writeWords, if_pos h1, h2, flatMap_bytesOf_getElem? _ 0 j hj]
  rfl

end Sys2Proof.Machine
end

