-- ==== Sys2Proof/Laws/Operands.lean ====
section
/-! SUPPORT. What the checks, the canonicalisation and the lane reads give, once for all commands. -/

namespace Sys2Proof

/-! ### The configuration table -/

/-- The table has four entries. -/
theorem entry_cases {k : Nat} {e : Entry} (h : entry? k = some e) :
    (k = 0 ∧ e = entry0) ∨ (k = 1 ∧ e = entry1) ∨ (k = 2 ∧ e = entry2) ∨ (k = 3 ∧ e = entry3) := by
  match k, h with
  | 0, h => exact .inl ⟨rfl, (Option.some.inj h).symm⟩
  | 1, h => exact .inr (.inl ⟨rfl, (Option.some.inj h).symm⟩)
  | 2, h => exact .inr (.inr (.inl ⟨rfl, (Option.some.inj h).symm⟩))
  | 3, h => exact .inr (.inr (.inr ⟨rfl, (Option.some.inj h).symm⟩))
  | k + 4, h => simp [entry?, entries] at h

theorem entry_none {k : Nat} (h : 4 ≤ k) : entry? k = none := by simp [entry?, entries, h]

theorem entry_some {k : Nat} (h : k < 4) : ∃ e, entry? k = some e := by
  match k, h with
  | 0, _ => exact ⟨_, rfl⟩
  | 1, _ => exact ⟨_, rfl⟩
  | 2, _ => exact ⟨_, rfl⟩
  | 3, _ => exact ⟨_, rfl⟩

theorem entry_q_pos {k : Nat} {e : Entry} (h : entry? k = some e) : 0 < e.q := by
  rcases entry_cases h with ⟨-, rfl⟩ | ⟨-, rfl⟩ | ⟨-, rfl⟩ | ⟨-, rfl⟩ <;> decide

theorem entry_q_lt {k : Nat} {e : Entry} (h : entry? k = some e) : e.q < 2 ^ 64 := by
  rcases entry_cases h with ⟨-, rfl⟩ | ⟨-, rfl⟩ | ⟨-, rfl⟩ | ⟨-, rfl⟩ <;> decide

/-- A vector of an entry fits a bank (R6). -/
theorem entry_dim_le {k : Nat} {e : Entry} (h : entry? k = some e) : e.dim ≤ 512 := by
  rcases entry_cases h with ⟨-, rfl⟩ | ⟨-, rfl⟩ | ⟨-, rfl⟩ | ⟨-, rfl⟩ <;> decide

/-- One subtraction canonicalises any operand in range (R6). -/
theorem inRange_lt {k : Nat} {e : Entry} (h : entry? k = some e) {x : Word} (hx : e.inRange x = true) :
    x.toNat < 2 * e.q := by
  rw [Entry.inRange, decide_eq_true_eq] at hx
  rcases entry_cases h with ⟨-, rfl⟩ | ⟨-, rfl⟩ | ⟨-, rfl⟩ | ⟨-, rfl⟩ <;>
    simp [entry0, entry1, entry2, entry3] at hx ⊢ <;> omega

/-! ### Arithmetic -/

/-- The conditional subtract of a sum of two canonical values reduces it (R113). -/
theorem condSub_eq_mod (e : Entry) {s : Nat} (h : s < 2 * e.q) : e.condSub s = s % e.q := by
  unfold Entry.condSub
  split
  · rw [Nat.mod_eq_sub_mod (by omega), Nat.mod_eq_of_lt (by omega)]
  · rw [Nat.mod_eq_of_lt (by omega)]

/-- The conditional add of a difference of two canonical values reduces it (R114). -/
theorem condAdd_eq_mod (e : Entry) {d : Int} (h1 : -(e.q : Int) < d) (h2 : d < e.q) :
    e.condAdd d = (d % (e.q : Int)).toNat := by
  unfold Entry.condAdd
  split
  · rw [← Int.add_emod_right, Int.emod_eq_of_lt (by omega) (by omega)]
  · rw [Int.emod_eq_of_lt (by omega) h2]

theorem subMod_lt (e : Entry) (h : 0 < e.q) (u v : Nat) : e.subMod u v < e.q := by
  have hq : (e.q : Int) ≠ 0 := by omega
  have h1 := Int.emod_nonneg ((u : Int) - v) hq
  have h2 := Int.emod_lt_of_pos ((u : Int) - v) (b := (e.q : Int)) (by omega)
  unfold Entry.subMod
  omega

theorem addMod_lt (e : Entry) (h : 0 < e.q) (u v : Nat) : e.addMod u v < e.q := Nat.mod_lt _ h

theorem reduce_lt (e : Entry) (h : 0 < e.q) (p : Nat) : e.reduce p < e.q := Nat.mod_lt _ h

/-- `P = hi * 2^64 + lo` (R112). -/
theorem productOf_toNat (hi lo : Word) : (productOf hi lo).toNat = hi.toNat * 2 ^ 64 + lo.toNat := by
  have h := lo.isLt
  rw [productOf, BitVec.toNat_append, Nat.shiftLeft_eq, Nat.mul_comm, ← Nat.two_pow_add_eq_or_of_lt h]

theorem zext64_toNat {v : Nat} (h : v < 2 ^ 64) : (zext64 v).toNat = v := by
  simp only [zext64, BitVec.toNat_ofNat, Nat.mod_eq_of_lt h]

/-! ### Checks and canonicalisation -/

/-- canon_k (R11): OPERAND_RANGE out of range, one conditional subtraction in range. -/
theorem canon_eq (e : Entry) (x : Word) :
    e.canon x = if e.inRange x then .ok (e.condSub x.toNat) else .error .operandRange := by
  unfold Entry.canon Entry.inRange Entry.condSub
  cases e.lazy
  · by_cases h : e.q ≤ x.toNat <;> simp [h]
  · by_cases h : 2 ^ e.ew ≤ x.toNat <;> simp [h]

/-- canon_k of an operand in range is the element it denotes (R11, R14). -/
theorem canon_ok {k : Nat} {e : Entry} (h : entry? k = some e) {x : Word} (hx : e.inRange x = true) :
    e.canon x = .ok (x.toNat % e.q) := by
  rw [canon_eq, if_pos hx, condSub_eq_mod e (inRange_lt h hx)]

theorem canon_error {e : Entry} {x : Word} (hx : e.inRange x = false) : e.canon x = .error .operandRange := by
  rw [canon_eq, hx]
  rfl

/-- Precheck (R96) in one line. -/
theorem precheck_eq (needsRoot : Bool) (idx : Option Nat) (k : Nat) :
    precheck needsRoot idx k =
      match entry? k with
      | none => .error .badCfg
      | some e =>
        if needsRoot = true ∧ e.nttOk = false then .error .noRoot
        else if ∃ i, idx = some i ∧ e.dim ≤ i then .error .idxRange else .ok e := by
  unfold precheck
  cases entry? k with
  | none => rfl
  | some e => cases needsRoot <;> cases he : e.nttOk <;> cases idx <;> simp

theorem precheck_plain {k : Nat} {e : Entry} (h : entry? k = some e) : precheck false none k = .ok e := by
  simp [precheck, h]

theorem precheck_root {k : Nat} {e : Entry} (h : entry? k = some e) (hr : e.nttOk = true) :
    precheck true none k = .ok e := by simp [precheck, h, hr]

theorem precheck_ok {needsRoot : Bool} {idx : Option Nat} {k : Nat} {e : Entry}
    (h : precheck needsRoot idx k = .ok e) : entry? k = some e := by
  rw [precheck_eq] at h
  split at h
  · cases h
  · rename_i he
    split at h
    · cases h
    · split at h
      · cases h
      · cases h
        exact he

namespace Machine

/-! ### Lanes -/

/-- One lane: UNINIT, out of range, or the element the word denotes. -/
theorem lane_eq {k : Nat} {e : Entry} (h : entry? k = some e) (m : Memory) (b : Bank) (i : Nat) :
    lane e m b i =
      match m.bankWord b i with
      | none => .error .uninit
      | some w => if e.inRange w then .ok (w.toNat % e.q) else .error .range := by
  unfold lane
  cases m.bankWord b i with
  | none => rfl
  | some w =>
    by_cases hw : e.inRange w = true
    · simp [canon_ok h hw, hw]
    · simp only [Bool.not_eq_true] at hw
      simp [canon_error hw, hw]

/-- A lane with its value: the word is defined, in range, and denotes that value. -/
def laneReady (e : Entry) (m : Memory) (b : Bank) (i : Nat) : Prop :=
  ∃ w, m.bankWord b i = some w ∧ e.inRange w = true

theorem lane_cases {k : Nat} {e : Entry} (h : entry? k = some e) (m : Memory) (b : Bank) (i : Nat) :
    (laneReady e m b i ∧ lane e m b i = .ok (m.elem e b i)) ∨
    (m.bankWord b i = none ∧ lane e m b i = .error .uninit) ∨
    ((∃ w, m.bankWord b i = some w ∧ e.inRange w = false) ∧ lane e m b i = .error .range) := by
  rw [lane_eq h]
  unfold laneReady Memory.elem
  cases hw : m.bankWord b i with
  | none => simp
  | some w => cases hr : e.inRange w <;> simp [hr]

/-- Reading lanes gives all their values, or stops at the first lane without one. -/
theorem lanesFrom_cases {k : Nat} {e : Entry} (h : entry? k = some e) (m : Memory) (b : Bank) (n i : Nat) :
    ((∀ j, j < n → laneReady e m b (i + j)) ∧
      lanesFrom e m b n i = .ok ((List.range n).map (fun j => m.elem e b (i + j)))) ∨
    (∃ j, j < n ∧ (∀ j', j' < j → laneReady e m b (i + j')) ∧ m.bankWord b (i + j) = none ∧
      lanesFrom e m b n i = .error .uninit) ∨
    (∃ j, j < n ∧ (∀ j', j' < j → laneReady e m b (i + j')) ∧
      (∃ w, m.bankWord b (i + j) = some w ∧ e.inRange w = false) ∧ lanesFrom e m b n i = .error .range) := by
  induction n generalizing i with
  | zero => simp [lanesFrom]
  | succ n ih =>
    have shift : ∀ {P : Nat → Prop} {j : Nat}, P i → (∀ j', j' < j → P (i + 1 + j')) → ∀ j', j' < j + 1 → P (i + j') := by
      intro P j h0 hs j' hj'
      cases j' with
      | zero => exact h0
      | succ j' => exact (by omega : i + (j' + 1) = i + 1 + j') ▸ hs j' (by omega)
    rcases lane_cases h m b i with ⟨hr, hl⟩ | ⟨hn, hl⟩ | ⟨hw, hl⟩
    · rcases ih (i + 1) with ⟨hr', hl'⟩ | ⟨j, hj, hr', hn, hl'⟩ | ⟨j, hj, hr', hw, hl'⟩
      · refine .inl ⟨shift hr hr', ?_⟩
        have hs : ∀ j, i + 1 + j = i + (j + 1) := fun j => by omega
        simp [lanesFrom, hl, hl', List.range_succ_eq_map, Function.comp_def, hs]
      · refine .inr (.inl ⟨j + 1, by omega, shift hr hr', ?_, by simp [lanesFrom, hl, hl']⟩)
        rwa [(by omega : i + (j + 1) = i + 1 + j)]
      · refine .inr (.inr ⟨j + 1, by omega, shift hr hr', ?_, by simp [lanesFrom, hl, hl']⟩)
        rwa [(by omega : i + (j + 1) = i + 1 + j)]
    · exact .inr (.inl ⟨0, by omega, by omega, hn, by simp [lanesFrom, hl]⟩)
    · exact .inr (.inr ⟨0, by omega, by omega, hw, by simp [lanesFrom, hl]⟩)

/-- The source vector of a ready bank (R190, R192). -/
theorem lanes_ready {k : Nat} {e : Entry} (h : entry? k = some e) {m : Memory} {b : Bank} (hr : m.ready e b) :
    lanes e m b = .ok ((List.range e.dim).map (m.elem e b)) := by
  rcases lanesFrom_cases h m b e.dim 0 with ⟨-, hl⟩ | ⟨j, hj, -, hn, -⟩ | ⟨j, hj, -, ⟨w, hw, hi⟩, -⟩
  · simpa [lanes] using hl
  · obtain ⟨w, hw, -⟩ := hr j hj
    simp [hw] at hn
  · obtain ⟨w', hw', hi'⟩ := hr j hj
    simp only [Nat.zero_add] at hw
    rw [hw] at hw'
    cases hw'
    simp [hi] at hi'

/-- The source vector has `DIM_k` canonical values. -/
theorem lanes_ok {k : Nat} {e : Entry} (h : entry? k = some e) {m : Memory} {b : Bank} {vs : List Nat}
    (hl : lanes e m b = .ok vs) : vs = (List.range e.dim).map (m.elem e b) := by
  rcases lanesFrom_cases h m b e.dim 0 with ⟨-, hl'⟩ | ⟨j, -, -, -, hl'⟩ | ⟨j, -, -, -, hl'⟩
  · rw [lanes, hl'] at hl
    cases hl
    simp
  · rw [lanes, hl'] at hl
    cases hl
  · rw [lanes, hl'] at hl
    cases hl

/-- Reading the lane pairs of PWMUL gives all their values, or stops at the first lane without one (R140). -/
theorem lanePairsFrom_cases {k : Nat} {e : Entry} (h : entry? k = some e) (m : Memory) (sa sb : Bank) (n i : Nat) :
    ((∀ j, j < n → laneReady e m sa (i + j) ∧ laneReady e m sb (i + j)) ∧
      lanePairsFrom e m sa sb n i =
        .ok ((List.range n).map (fun j => (m.elem e sa (i + j), m.elem e sb (i + j))))) ∨
    (∃ j x, j < n ∧ (∀ j', j' < j → laneReady e m sa (i + j') ∧ laneReady e m sb (i + j')) ∧
      (lane e m sa (i + j) = .error x ∨ (laneReady e m sa (i + j) ∧ lane e m sb (i + j) = .error x)) ∧
      lanePairsFrom e m sa sb n i = .error x) := by
  have ready_or : ∀ b j, (laneReady e m b j ∧ lane e m b j = .ok (m.elem e b j)) ∨ ∃ x, lane e m b j = .error x := by
    intro b j
    rcases lane_cases h m b j with hr | ⟨-, hl⟩ | ⟨-, hl⟩
    · exact .inl hr
    · exact .inr ⟨_, hl⟩
    · exact .inr ⟨_, hl⟩
  induction n generalizing i with
  | zero => simp [lanePairsFrom]
  | succ n ih =>
    have hs : ∀ j, i + 1 + j = i + (j + 1) := fun j => by omega
    rcases ready_or sa i with ⟨ra, la⟩ | ⟨x, la⟩
    · rcases ready_or sb i with ⟨rb, lb⟩ | ⟨x, lb⟩
      · have shift : ∀ {j : Nat}, (∀ j', j' < j → laneReady e m sa (i + 1 + j') ∧ laneReady e m sb (i + 1 + j')) →
            ∀ j', j' < j + 1 → laneReady e m sa (i + j') ∧ laneReady e m sb (i + j') := by
          intro j hj j' hj'
          cases j' with
          | zero => exact ⟨ra, rb⟩
          | succ j' => exact hs j' ▸ hj j' (by omega)
        rcases ih (i + 1) with ⟨hr, hl⟩ | ⟨j, x, hj, hr, hx, hl⟩
        · refine .inl ⟨shift hr, ?_⟩
          simp [lanePairsFrom, la, lb, hl, List.range_succ_eq_map, Function.comp_def, hs]
        · refine .inr ⟨j + 1, x, by omega, shift hr, ?_, by simp [lanePairsFrom, la, lb, hl]⟩
          rwa [← hs j]
      · exact .inr ⟨0, x, by omega, by omega, .inr ⟨ra, lb⟩, by simp [lanePairsFrom, la, lb]⟩
    · exact .inr ⟨0, x, by omega, by omega, .inl la, by simp [lanePairsFrom, la]⟩

/-- The source pairs of two ready banks. -/
theorem lanePairs_ready {k : Nat} {e : Entry} (h : entry? k = some e) {m : Memory} {sa sb : Bank}
    (ha : m.ready e sa) (hb : m.ready e sb) :
    lanePairs e m sa sb = .ok ((List.range e.dim).map (fun j => (m.elem e sa j, m.elem e sb j))) := by
  have ready_ne : ∀ b j x, m.ready e b → j < e.dim → lane e m b j ≠ .error x := by
    intro b j x hb hj hx
    obtain ⟨w, hw, hi⟩ := hb j hj
    simp [lane_eq h, hw, hi] at hx
  rcases lanePairsFrom_cases h m sa sb e.dim 0 with ⟨-, hl⟩ | ⟨j, x, hj, -, hx, -⟩
  · simpa [lanePairs] using hl
  · rw [Nat.zero_add] at hx
    rcases hx with hx | ⟨-, hx⟩
    · exact absurd hx (ready_ne sa j x ha hj)
    · exact absurd hx (ready_ne sb j x hb hj)

theorem lanePairsFrom_length (e : Entry) (m : Memory) (sa sb : Bank) (n i : Nat) {ps : List (Nat × Nat)}
    (hl : lanePairsFrom e m sa sb n i = .ok ps) : ps.length = n := by
  induction n generalizing i ps with
  | zero =>
    simp only [lanePairsFrom, Except.ok.injEq] at hl
    simp [← hl]
  | succ n ih =>
    simp only [lanePairsFrom] at hl
    split at hl
    · cases hl
    · split at hl
      · cases hl
      · split at hl
        · cases hl
        · rename_i ps' hps'
          cases hl
          simp [ih (i + 1) hps']

end Machine

end Sys2Proof
end

