-- ==== Sys2Proof/Laws/Ops.lean ====
section
/-! SUPPORT. What the shared transitions do: the error log, the completion of scalar and vector commands and the step,
each said once and cited by the proofs. -/

namespace Sys2Proof.Machine

/-- `log(e)` (R218) as a record. -/
@[simp] theorem logErr_eq (s : State) (e : ErrCode) : s.logErr e = s.logged e := by
  unfold State.logErr State.logged
  cases h : s.err <;> simp

/-- `finish` and the claim's `completed` are one update (R216). -/
@[simp] theorem finish_eq (s : State) : s.finish = s.completed := rfl

/-- The effects of a command error (R216, R217). -/
@[simp] theorem raiseErr_eq (s : State) (e : ErrCode) : s.raiseErr e = s.afterError e := by
  simp [State.raiseErr, State.afterError]

/-- A scalar command completes in every case. -/
theorem completeScalar_next (s : State) (r : Except ErrCode State) :
    ∃ t, completeScalar s r = .next t ∧
      ((∃ u, r = .ok u ∧ t = u.completed) ∨ (∃ e, r = .error e ∧ t = s.afterError e)) := by
  cases r with
  | ok u => exact ⟨_, rfl, .inl ⟨u, rfl, rfl⟩⟩
  | error e => exact ⟨_, rfl, .inr ⟨e, rfl, raiseErr_eq s e⟩⟩

theorem completeScalar_ok (s u : State) : completeScalar s (.ok u) = .next u.completed := rfl

theorem completeScalar_error (s : State) (e : ErrCode) : completeScalar s (.error e) = .next (s.afterError e) := by
  simp [completeScalar]

/-- A vector command completes in every case, and what each case leaves. -/
theorem completeVector_next (s : State) (e : Entry) (d : Bank) (r : Except LaneStop (List Nat)) :
    ∃ t, completeVector s e d r = .next t ∧
      ((∃ vs, r = .ok vs ∧ t = State.completed { s with mem := s.mem.setBank d (vs.map zext64) }) ∨
       (r = .error .range ∧ t = State.afterError { s with mem := s.mem.uninitBank d e.dim } .operandRange) ∨
       (r = .error .uninit ∧ t = s.uninitOutcome d e.dim)) := by
  rcases r with (_ | _) | vs
  · exact ⟨_, rfl, .inr (.inl ⟨rfl, raiseErr_eq _ _⟩)⟩
  · exact ⟨_, rfl, .inr (.inr ⟨rfl, rfl⟩)⟩
  · exact ⟨_, rfl, .inl ⟨vs, rfl, rfl⟩⟩

@[simp] theorem freeWords_length (a n : Nat) : (freeWords a n).length = n := by simp [freeWords]

/-- The modelling fault (R232): recorded, with free words in bank D, and OPERAND_RANGE logged or not. -/
theorem uninitOutcome_cases (s : State) (d : Bank) (n : Nat) :
    let t : State := { s with
      uninitRead := true, free := s.free + n + 1, mem := s.mem.setBank d (freeWords (s.free + 1) n) }
    s.uninitOutcome d n = t.completed ∨ s.uninitOutcome d n = t.afterError .operandRange := by
  intro t
  unfold State.uninitOutcome
  cases Config.freeFlag s.free
  · exact .inl rfl
  · exact .inr (raiseErr_eq t .operandRange)

/-- The core's turn while BUSY is completion (R216). -/
theorem coreStep_busy {s : State} {c : Word} (h : s.phase = .busy c) : coreStep s = completeCmd s c := by
  simp [coreStep, h]

/-- The core's turn while IDLE changes nothing (R242). -/
theorem coreStep_idle {s : State} (h : s.phase = .idle) : coreStep s = .next s := by simp [coreStep, h]

/-- A step takes the turn the agenda gives it. -/
theorem step_eq (s : State) : step s = takeTurn s.dequeue s.turn := by
  unfold step nextTurn State.dequeue State.turn
  obtain ⟨_, _, _, _, _, _, _, _, _, _, _, _, _, _, _, _, agenda, _⟩ := s
  cases agenda <;> rfl

theorem busy_eq_true {s : State} : s.busy = true ↔ ∃ c, s.phase = .busy c := by
  unfold State.busy
  cases s.phase <;> simp

theorem busy_eq_false {s : State} : s.busy = false ↔ s.phase = .idle := by
  unfold State.busy
  cases s.phase <;> simp

/-! ### The address map -/

theorem target_register {addr : Addr} (h : addr.toNat < 0x100) : target addr = registerAt addr.toNat := by
  simp [target, h]

theorem bankAddr_lt (b : Bank) (i : Nat) (hi : i < 512) : bankAddr b i < 0x30000 := by
  rw [bankAddr_eq]
  omega

/-- A bank word's address selects it (R64). -/
theorem target_bank (b : Bank) (i : Nat) (hi : i < 512) : target (BitVec.ofNat 18 (bankAddr b i)) = .bank b i := by
  have hlt := bankAddr_lt b i hi
  have ha : (BitVec.ofNat 18 (bankAddr b i)).toNat = bankAddr b i := by
    rw [BitVec.toNat_ofNat]
    exact Nat.mod_eq_of_lt (by omega)
  have hq : (bankAddr b i - bankBase) / bankSpan = b.val := by
    simp only [bankAddr_eq, bankBase, bankSpan]
    omega
  have hr : (bankAddr b i - bankBase) % bankSpan / 8 = i := by
    simp only [bankAddr_eq, bankBase, bankSpan]
    omega
  have hb : Fin.ofNat 4 b.val = b := Fin.ext (Nat.mod_eq_of_lt b.isLt)
  unfold target bankWordAt
  simp only [ha, hq, hr, hb]
  have h1 : ¬ bankAddr b i < 0x100 := by rw [bankAddr_eq]; omega
  have h2 : ¬ bankAddr b i < 0x300 := by rw [bankAddr_eq]; omega
  have h3 : ¬ bankAddr b i < bankBase := by rw [bankAddr_eq, bankBase]; omega
  have h4 : bankAddr b i < bankBase + Config.nbank * bankSpan := by
    simp only [bankBase, Config.nbank, bankSpan]
    omega
  simp [h1, h2, h3, h4, Config.dimMax, hi]

theorem admitted_bank (b : Bank) (i : Nat) (hi : i < 512) : admitted (BitVec.ofNat 18 (bankAddr b i)) 8 = true := by
  have hlt := bankAddr_lt b i hi
  have ha : (BitVec.ofNat 18 (bankAddr b i)).toNat = bankAddr b i := by
    rw [BitVec.toNat_ofNat]
    exact Nat.mod_eq_of_lt (by omega)
  rw [admitted, ha, bankAddr_eq]
  simp
  omega

/-- A block address is found from the system address that `BASE` gives it (R63). -/
theorem blockAddr_base (a : Addr) : blockAddr (base + a.toNat) = some a := by
  have h : a.toNat < 262144 := a.isLt
  simp [blockAddr, Config.aw, h]

end Sys2Proof.Machine
end

