-- ==== Sys2Proof/Laws/Bus.lean ====
section
/-! SUPPORT. What a host access can do, once for all proofs: each named register by its address, each bank word, and the
inversion of a host write. -/

namespace Sys2Proof.Machine

section
variable (s : State) (v : Word)

theorem hostRead_id : s.hostRead 0x00 8 = s.answer idWord := rfl
theorem hostRead_cap : s.hostRead 0x08 8 = s.answer capWord := rfl
theorem hostRead_ctrl : s.hostRead 0x10 8 = s.answer s.ctrlWord := rfl
theorem hostRead_status : s.hostRead 0x18 8 = s.answer s.statusWord := rfl
theorem hostRead_cmd : s.hostRead 0x20 8 = s.answer s.cmd := rfl
theorem hostRead_opa : s.hostRead 0x28 8 = s.answer s.opa := rfl
theorem hostRead_opb : s.hostRead 0x30 8 = s.answer s.opb := rfl
theorem hostRead_opt : s.hostRead 0x38 8 = s.answer s.opt := rfl
theorem hostRead_res0 : s.hostRead 0x40 8 = s.answer s.res0 := rfl
theorem hostRead_res1 : s.hostRead 0x48 8 = s.answer s.res1 := rfl

theorem hostWrite_ctrl : s.hostWrite 0x10 8 v = (s.writeCtrl v).writeOk := rfl
theorem hostWrite_status : s.hostWrite 0x18 8 v = (s.writeStatus v).writeOk := rfl
theorem hostWrite_cmd : s.hostWrite 0x20 8 v = (s.writeCmd v).writeOk := rfl
theorem hostWrite_opa : s.hostWrite 0x28 8 v = (s.writeOperand { s with opa := v }).writeOk := rfl
theorem hostWrite_opb : s.hostWrite 0x30 8 v = (s.writeOperand { s with opb := v }).writeOk := rfl
theorem hostWrite_opt : s.hostWrite 0x38 8 v = (s.writeOperand { s with opt := v }).writeOk := rfl

theorem hostWrite_bank (b : Bank) (i : Nat) (hi : i < 512) :
    s.hostWrite (BitVec.ofNat 18 (bankAddr b i)) 8 v =
      (s.writeOperand { s with mem := s.mem.setBankWord b i v }).writeOk := by
  simp only [State.hostWrite, admitted_bank b i hi, target_bank b i hi, if_true]

theorem hostRead_bank (b : Bank) (i : Nat) (hi : i < 512) :
    s.hostRead (BitVec.ofNat 18 (bankAddr b i)) 8 = s.readBank b i := by
  simp only [State.hostRead, admitted_bank b i hi, target_bank b i hi, if_true]

end

/-- The registers of the map stand at their own offsets only (R63). -/
theorem registerAt_cases (a : Nat) :
    (registerAt a = .id ∧ a = 0x00) ∨ (registerAt a = .cap ∧ a = 0x08) ∨ (registerAt a = .ctrl ∧ a = 0x10) ∨
    (registerAt a = .status ∧ a = 0x18) ∨ (registerAt a = .cmd ∧ a = 0x20) ∨ (registerAt a = .opa ∧ a = 0x28) ∨
    (registerAt a = .opb ∧ a = 0x30) ∨ (registerAt a = .opt ∧ a = 0x38) ∨ (registerAt a = .res0 ∧ a = 0x40) ∨
    (registerAt a = .res1 ∧ a = 0x48) ∨
    (registerAt a = .reserved ∧ a ∉ [0x00, 0x08, 0x10, 0x18, 0x20, 0x28, 0x30, 0x38, 0x40, 0x48]) := by
  unfold registerAt
  repeat' split
  all_goals simp_all

theorem cfgRegisterAt_cases (e : Entry) (o : Nat) :
    (cfgRegisterAt e o = .cfgQ e ∧ o = 0x00) ∨ (cfgRegisterAt e o = .cfgInfo e ∧ o = 0x08) ∨
    (cfgRegisterAt e o = .cfgPsi e ∧ o = 0x10) ∨ (cfgRegisterAt e o = .cfgDinv e ∧ o = 0x18) ∨
    (cfgRegisterAt e o = .reserved ∧ o ∉ [0x00, 0x08, 0x10, 0x18]) := by
  unfold cfgRegisterAt
  repeat' split
  all_goals simp_all

/-- What an admitted host write can be: an error without effect, or the write of one register or bank word at its own
address. -/
theorem hostWrite_cases (s : State) (addr : Addr) (size : Nat) (v : Word) :
    s.hostWrite addr size v = s.writeError ∨
    (addr = 0x10 ∧ size = 8 ∧ s.hostWrite addr size v = (s.writeCtrl v).writeOk) ∨
    (addr = 0x18 ∧ size = 8 ∧ s.hostWrite addr size v = (s.writeStatus v).writeOk) ∨
    (addr = 0x20 ∧ size = 8 ∧ s.hostWrite addr size v = (s.writeCmd v).writeOk) ∨
    (∃ t, (t = { s with opa := v } ∨ t = { s with opb := v } ∨ t = { s with opt := v } ∨
        ∃ b i, i < 512 ∧ t = { s with mem := s.mem.setBankWord b i v }) ∧
      s.hostWrite addr size v = (s.writeOperand t).writeOk) := by
  by_cases ha : admitted addr size = true
  · have hsize : size = 8 := by
      simp only [admitted, Bool.and_eq_true, beq_iff_eq] at ha
      exact ha.1
    have haddr : ∀ n : Nat, n < 2 ^ 18 → addr.toNat = n → addr = BitVec.ofNat 18 n := by
      intro n hn h
      apply BitVec.eq_of_toNat_eq
      rw [h, BitVec.toNat_ofNat, Nat.mod_eq_of_lt hn]
    by_cases h1 : addr.toNat < 0x100
    · have ht := target_register h1
      rcases registerAt_cases addr.toNat with ⟨h, hx⟩ | ⟨h, hx⟩ | ⟨h, hx⟩ | ⟨h, hx⟩ | ⟨h, hx⟩ | ⟨h, hx⟩ | ⟨h, hx⟩ |
        ⟨h, hx⟩ | ⟨h, hx⟩ | ⟨h, hx⟩ | ⟨h, hx⟩ <;> rw [h] at ht <;> simp only [State.hostWrite, ha, ht, if_true, true_or]
      · exact .inr (.inl ⟨haddr 0x10 (by omega) hx, hsize, trivial⟩)
      · exact .inr (.inr (.inl ⟨haddr 0x18 (by omega) hx, hsize, trivial⟩))
      · exact .inr (.inr (.inr (.inl ⟨haddr 0x20 (by omega) hx, hsize, trivial⟩)))
      · exact .inr (.inr (.inr (.inr ⟨_, .inl rfl, rfl⟩)))
      · exact .inr (.inr (.inr (.inr ⟨_, .inr (.inl rfl), rfl⟩)))
      · exact .inr (.inr (.inr (.inr ⟨_, .inr (.inr (.inl rfl)), rfl⟩)))
    · have ht : (∃ b i, i < 512 ∧ target addr = .bank b i) ∨ target addr = .reserved ∨
          ∃ e, target addr = .cfgQ e ∨ target addr = .cfgInfo e ∨ target addr = .cfgPsi e ∨ target addr = .cfgDinv e := by
        simp only [target, h1, if_false]
        split
        · unfold configAt
          split
          · exact .inr (.inl rfl)
          · rename_i e _
            rcases cfgRegisterAt_cases e ((addr.toNat - 0x100) % 0x20) with h | h | h | h | h
            · exact .inr (.inr ⟨e, .inl h.1⟩)
            · exact .inr (.inr ⟨e, .inr (.inl h.1)⟩)
            · exact .inr (.inr ⟨e, .inr (.inr (.inl h.1))⟩)
            · exact .inr (.inr ⟨e, .inr (.inr (.inr h.1))⟩)
            · exact .inr (.inl h.1)
        · split
          · exact .inr (.inl rfl)
          · split
            · unfold bankWordAt
              split
              · rename_i h
                exact .inl ⟨_, _, h, rfl⟩
              · exact .inr (.inl rfl)
            · exact .inr (.inl rfl)
      rcases ht with ⟨b, i, hi, ht⟩ | ht | ⟨e, ht | ht | ht | ht⟩ <;> simp only [State.hostWrite, ha, ht, if_true, true_or]
      exact .inr (.inr (.inr (.inr ⟨_, .inr (.inr (.inr ⟨b, i, hi, rfl⟩)), rfl⟩)))
  · exact .inl (by simp [State.hostWrite, ha])

/-- A host read leaves the block alone: only the response and the count of free values move. -/
theorem hostRead_frame (s : State) (addr : Addr) (size : Nat) :
    (s.hostRead addr size).mem = s.mem ∧ (s.hostRead addr size).phase = s.phase ∧
      (s.hostRead addr size).agenda = s.agenda := by
  unfold State.hostRead
  split
  · split <;> first | exact ⟨rfl, rfl, rfl⟩ | skip
    unfold State.readBank
    split
    · exact ⟨rfl, rfl, rfl⟩
    · split <;> exact ⟨rfl, rfl, rfl⟩
  · exact ⟨rfl, rfl, rfl⟩

end Sys2Proof.Machine
end

