-- ==== Sys2Proof/Laws/Decode.lean ====
section
/-! SUPPORT. The layout of R91 read back field by field, and a mask applied to it field by field. -/

namespace Sys2Proof

/-- Bits 63:32 of an encoding are 0 (R90). -/
theorem packFields_high (idx cfg sel : Nat) (d sb sa : Bank) (opc : BitVec 8) :
    (packFields idx cfg sel d sb sa opc).extractLsb' 32 32 = 0 := BitVec.extractLsb'_append_eq_left

/-- Bits 31:0 of an encoding are its fields (R91). -/
theorem packFields_low (idx cfg sel : Nat) (d sb sa : Bank) (opc : BitVec 8) :
    (packFields idx cfg sel d sb sa opc).extractLsb' 0 32 =
      layout (BitVec.ofNat 12 idx) (BitVec.ofNat 4 cfg) (BitVec.ofNat 2 sel) (BitVec.ofFin d) (BitVec.ofFin sb)
        (BitVec.ofFin sa) opc := BitVec.extractLsb'_append_eq_right

section
variable (idx : BitVec 12) (cfg : BitVec 4) (sel d sb sa : BitVec 2) (opc : BitVec 8)

theorem opcOf_layout : opcOf (layout idx cfg sel d sb sa opc) = opc := BitVec.extractLsb'_append_eq_right

theorem saOf_layout : saOf (layout idx cfg sel d sb sa opc) = sa.toFin := by
  unfold saOf layout
  rw [BitVec.extractLsb'_append_eq_of_le (by decide)]
  exact congrArg BitVec.toFin BitVec.extractLsb'_append_eq_right

theorem sbOf_layout : sbOf (layout idx cfg sel d sb sa opc) = sb.toFin := by
  unfold sbOf layout
  rw [BitVec.extractLsb'_append_eq_of_le (by decide), BitVec.extractLsb'_append_eq_of_le (by decide)]
  exact congrArg BitVec.toFin BitVec.extractLsb'_append_eq_right

theorem dOf_layout : dOf (layout idx cfg sel d sb sa opc) = d.toFin := by
  unfold dOf layout
  rw [BitVec.extractLsb'_append_eq_of_le (by decide), BitVec.extractLsb'_append_eq_of_le (by decide),
    BitVec.extractLsb'_append_eq_of_le (by decide)]
  exact congrArg BitVec.toFin BitVec.extractLsb'_append_eq_right

theorem cfgOf_layout : cfgOf (layout idx cfg sel d sb sa opc) = cfg.toNat := by
  unfold cfgOf layout
  rw [BitVec.extractLsb'_append_eq_of_le (by decide), BitVec.extractLsb'_append_eq_of_le (by decide),
    BitVec.extractLsb'_append_eq_of_le (by decide), BitVec.extractLsb'_append_eq_of_le (by decide),
    BitVec.extractLsb'_append_eq_of_le (by decide)]
  exact congrArg BitVec.toNat BitVec.extractLsb'_append_eq_right

theorem idxOf_layout : idxOf (layout idx cfg sel d sb sa opc) = idx.toNat := by
  unfold idxOf layout
  rw [BitVec.extractLsb'_append_eq_of_le (by decide), BitVec.extractLsb'_append_eq_of_le (by decide),
    BitVec.extractLsb'_append_eq_of_le (by decide), BitVec.extractLsb'_append_eq_of_le (by decide),
    BitVec.extractLsb'_append_eq_of_le (by decide)]
  exact congrArg BitVec.toNat BitVec.extractLsb'_append_eq_left

/-- A mask of whole fields masks each field. -/
theorem and_layout (idx' : BitVec 12) (cfg' : BitVec 4) (sel' d' sb' sa' : BitVec 2) (opc' : BitVec 8) :
    layout idx cfg sel d sb sa opc &&& layout idx' cfg' sel' d' sb' sa' opc' =
      layout (idx &&& idx') (cfg &&& cfg') (sel &&& sel') (d &&& d') (sb &&& sb') (sa &&& sa') (opc &&& opc') := by
  refine BitVec.and_append.trans (congrArg (· ++ (opc &&& opc')) ?_)
  refine BitVec.and_append.trans (congrArg (· ++ (sa &&& sa')) ?_)
  refine BitVec.and_append.trans (congrArg (· ++ (sb &&& sb')) ?_)
  refine BitVec.and_append.trans (congrArg (· ++ (d &&& d')) ?_)
  refine BitVec.and_append.trans (congrArg (· ++ (sel &&& sel')) ?_)
  exact BitVec.and_append

end

/-- Two layouts are one word only field by field. -/
theorem layout_inj {idx idx' : BitVec 12} {cfg cfg' : BitVec 4} {sel sel' d d' sb sb' sa sa' : BitVec 2}
    {opc opc' : BitVec 8} (h : layout idx cfg sel d sb sa opc = layout idx' cfg' sel' d' sb' sa' opc') :
    idx = idx' ∧ cfg = cfg' ∧ sel = sel' ∧ d = d' ∧ sb = sb' ∧ sa = sa' ∧ opc = opc' := by
  have part : ∀ {v w : Nat} {x x' : BitVec v} {y y' : BitVec w}, x ++ y = x' ++ y' → x = x' ∧ y = y' := by
    intro v w x x' y y' hxy
    have h1 := congrArg (BitVec.extractLsb' w v) hxy
    have h2 := congrArg (BitVec.extractLsb' 0 w) hxy
    rw [BitVec.extractLsb'_append_eq_left, BitVec.extractLsb'_append_eq_left] at h1
    rw [BitVec.extractLsb'_append_eq_right, BitVec.extractLsb'_append_eq_right] at h2
    exact ⟨h1, h2⟩
  unfold layout at h
  obtain ⟨h, h1⟩ := part h
  obtain ⟨h, h2⟩ := part h
  obtain ⟨h, h3⟩ := part h
  obtain ⟨h, h4⟩ := part h
  obtain ⟨h, h5⟩ := part h
  obtain ⟨h, h6⟩ := part h
  exact ⟨h, h6, h5, h4, h3, h2, h1⟩

/-- Every 32-bit word is the layout of its fields. -/
theorem exists_layout (w : CmdWord) : ∃ idx cfg sel d sb sa opc, w = layout idx cfg sel d sb sa opc := by
  refine ⟨w.extractLsb' 20 12, w.extractLsb' 16 4, w.extractLsb' 14 2, w.extractLsb' 12 2, w.extractLsb' 10 2,
    w.extractLsb' 8 2, w.extractLsb' 0 8, ?_⟩
  unfold layout
  apply BitVec.eq_of_getLsbD_eq
  intro i hi
  simp only [BitVec.getLsbD_append, BitVec.getLsbD_extractLsb']
  interval_cases i <;> simp

end Sys2Proof
end

