-- ==== Sys2Proof/Laws/Ntt.lean ====
section
/-! SUPPORT. The transforms keep the length of the vector and its values canonical, and what one butterfly of the loops does
to each element. -/

namespace Sys2Proof.Machine

/-- A vector of `n` canonical values (R17). -/
def canonicalVec (e : Entry) (n : Nat) (a : List Nat) : Prop := a.length = n ∧ ∀ x ∈ a, x < e.q

/-- What every pass of a loop keeps, the loop keeps. -/
theorem foldl_keeps {α β : Type} (P : β → Prop) (f : β → α → β) (l : List α) (a : β) (ha : P a)
    (hf : ∀ b x, P b → P (f b x)) : P (l.foldl f a) := by
  induction l generalizing a with
  | nil => exact ha
  | cons x l ih => exact ih (f a x) (hf a x ha)

theorem canonicalVec_set {e : Entry} {n : Nat} {a : List Nat} (h : canonicalVec e n a) (j : Nat) {v : Nat}
    (hv : v < e.q) : canonicalVec e n (a.set j v) := by
  refine ⟨by simp [h.1], fun x hx => ?_⟩
  rcases List.mem_or_eq_of_mem_set hx with hx | rfl
  · exact h.2 x hx
  · exact hv

section
variable {e : Entry} (hq : 0 < e.q) {n : Nat}
include hq

theorem canonicalVec_ctStep {a : List Nat} (h : canonicalVec e n a) (t S j : Nat) :
    canonicalVec e n (ctStep e t S a j) :=
  canonicalVec_set (canonicalVec_set h _ (addMod_lt e hq _ _)) _ (subMod_lt e hq _ _)

theorem canonicalVec_gsStep {a : List Nat} (h : canonicalVec e n a) (t S j : Nat) :
    canonicalVec e n (gsStep e t S a j) :=
  canonicalVec_set (canonicalVec_set h _ (addMod_lt e hq _ _)) _ (reduce_lt e hq _)

theorem canonicalVec_ctStage {a : List Nat} (h : canonicalVec e n a) (m t : Nat) :
    canonicalVec e n (ctStage e m t a) :=
  foldl_keeps _ _ _ _ h fun _ _ hb => foldl_keeps _ _ _ _ hb fun _ _ hc => canonicalVec_ctStep hq hc _ _ _

theorem canonicalVec_gsStage {a : List Nat} (h : canonicalVec e n a) (m t : Nat) :
    canonicalVec e n (gsStage e m t a) :=
  foldl_keeps _ _ _ _ h fun _ _ hb => foldl_keeps _ _ _ _ hb fun _ _ hc => canonicalVec_gsStep hq hc _ _ _

theorem canonicalVec_ctStages (l m t : Nat) {a : List Nat} (h : canonicalVec e n a) :
    canonicalVec e n (ctStages e l m t a) := by
  induction l generalizing m t a with
  | zero => exact h
  | succ l ih => exact ih _ _ (canonicalVec_ctStage hq h _ _)

theorem canonicalVec_gsStages (l m t : Nat) {a : List Nat} (h : canonicalVec e n a) :
    canonicalVec e n (gsStages e l m t a) := by
  induction l generalizing m t a with
  | zero => exact h
  | succ l ih => exact ih _ _ (canonicalVec_gsStage hq h _ _)

/-- NTTF gives canonical values (R17). -/
theorem canonicalVec_nttForward {a : List Nat} (h : canonicalVec e n a) : canonicalVec e n (nttForward e a) :=
  canonicalVec_ctStages hq _ _ _ h

/-- NTTI gives canonical values (R17). -/
theorem canonicalVec_nttInverse {a : List Nat} (h : canonicalVec e n a) : canonicalVec e n (nttInverse e a) := by
  have := canonicalVec_gsStages hq e.log2dim e.dim 1 h
  refine ⟨by simp [nttInverse, this.1], fun x hx => ?_⟩
  obtain ⟨y, -, rfl⟩ := List.mem_map.1 hx
  exact reduce_lt e hq _

/-- PWMUL gives canonical values (R17). -/
theorem canonicalVec_pointwise {ps : List (Nat × Nat)} (h : ps.length = n) : canonicalVec e n (pointwise e ps) := by
  refine ⟨by simp [pointwise, h], fun x hx => ?_⟩
  obtain ⟨p, -, rfl⟩ := List.mem_map.1 hx
  exact reduce_lt e hq _

end

theorem nth_set (a : List Nat) (i j v : Nat) (hi : i < a.length) :
    nth (a.set i v) j = if j = i then v else nth a j := by
  unfold nth
  by_cases h : j = i
  · subst h
    simp [hi]
  · simp [h, List.getD_eq_getElem?_getD, List.getElem?_set_ne (Ne.symm h)]

/-- One CT butterfly: the pair changes, every other element stays (R190). -/
theorem nth_ctStep (e : Entry) {t S : Nat} {a : List Nat} {j : Nat} (ht : 0 < t) (hj : j + t < a.length) (x : Nat) :
    nth (ctStep e t S a j) x =
      if x = j then e.addMod (nth a j) (e.reduce (nth a (j + t) * S))
      else if x = j + t then e.subMod (nth a j) (e.reduce (nth a (j + t) * S))
      else nth a x := by
  unfold ctStep
  rw [nth_set _ _ _ _ (by simpa using hj), nth_set _ _ _ _ (by omega)]
  by_cases h : x = j
  · have : x ≠ j + t := by omega
    simp [h, ht.ne']
  · simp [h]

/-- One GS butterfly: the pair changes, every other element stays (R192). -/
theorem nth_gsStep (e : Entry) {t S : Nat} {a : List Nat} {j : Nat} (ht : 0 < t) (hj : j + t < a.length) (x : Nat) :
    nth (gsStep e t S a j) x =
      if x = j then e.addMod (nth a j) (nth a (j + t))
      else if x = j + t then e.reduce (e.subMod (nth a j) (nth a (j + t)) * S)
      else nth a x := by
  unfold gsStep
  rw [nth_set _ _ _ _ (by simpa using hj), nth_set _ _ _ _ (by omega)]
  by_cases h : x = j
  · have : x ≠ j + t := by omega
    simp [h, ht.ne']
  · simp [h]

end Sys2Proof.Machine
end

