-- ==== Sys2Proof/Laws/Exec.lean ====
section
/-! SUPPORT. What a command can do, said once: every frame and invariant over exec is derived from it. -/

namespace Sys2Proof.Machine

/-- The ways a command can complete (R216, R217, R232). -/
inductive Completion (i : Instr) (s : State) : State → Prop
  /-- A scalar command without error: RES0 and RES1 at most. -/
  | scalar (r0 r1 : Word) : Completion i s (State.completed { s with res0 := r0, res1 := r1 })
  /-- An error with no effect but its log. -/
  | error (x : ErrCode) (hx : x ≠ .none) : Completion i s (s.afterError x)
  /-- A vector command without error: `DIM_k` canonical words of bank D. -/
  | vector (k : Nat) (e : Entry) (d : Bank) (vs : List Nat) (hd : vectorDest i = some (k, d)) (he : entry? k = some e)
      (hv : canonicalVec e e.dim vs) :
      Completion i s (State.completed { s with mem := s.mem.setBank d (vs.map zext64) })
  /-- OPERAND_RANGE of a vector command: the destination words become UNINIT. -/
  | range (k : Nat) (e : Entry) (d : Bank) (hd : vectorDest i = some (k, d)) (he : entry? k = some e) :
      Completion i s (State.afterError { s with mem := s.mem.uninitBank d e.dim } .operandRange)
  /-- UNINIT_READ. -/
  | uninit (k : Nat) (e : Entry) (d : Bank) (hd : vectorDest i = some (k, d)) (he : entry? k = some e) :
      Completion i s (s.uninitOutcome d e.dim)

/-- A scalar command is one of the first two. -/
theorem completion_scalar {i : Instr} {s t : State} {r : Except ErrCode State}
    (h : completeScalar s r = .next t) (hok : ∀ u, r = .ok u → ∃ r0 r1, u = { s with res0 := r0, res1 := r1 })
    (herr : ∀ x, r = .error x → x ≠ .none) : Completion i s t := by
  obtain ⟨t', ht', ⟨u, hu, rfl⟩ | ⟨x, hx, rfl⟩⟩ := completeScalar_next s r <;> rw [h] at ht' <;> cases ht'
  · obtain ⟨r0, r1, rfl⟩ := hok u hu
    exact .scalar r0 r1
  · exact .error x (herr x hx)

/-- A vector command with its operands past Precheck. -/
theorem completion_vector {i : Instr} {s t : State} {k : Nat} {e : Entry} {d : Bank} {r : Except LaneStop (List Nat)}
    (hd : vectorDest i = some (k, d)) (he : entry? k = some e) (h : completeVector s e d r = .next t)
    (hok : ∀ vs, r = .ok vs → canonicalVec e e.dim vs) : Completion i s t := by
  obtain ⟨t', ht', ⟨vs, hv, rfl⟩ | ⟨-, rfl⟩ | ⟨-, rfl⟩⟩ := completeVector_next s e d r <;> rw [h] at ht' <;> cases ht'
  · exact .vector k e d vs hd he (hok vs hv)
  · exact .range k e d hd he
  · exact .uninit k e d hd he

theorem bind_ok {α β : Type} {x : Except ErrCode α} {f : α → Except ErrCode β} {b : β} (h : x >>= f = .ok b) :
    ∃ a, x = .ok a ∧ f a = .ok b := by
  cases x with
  | error e => cases h
  | ok a => exact ⟨a, rfl, h⟩

theorem bind_error {α β : Type} {x : Except ErrCode α} {f : α → Except ErrCode β} {e : ErrCode}
    (h : x >>= f = .error e) : x = .error e ∨ ∃ a, x = .ok a ∧ f a = .error e := by
  cases x with
  | error e' =>
    cases h
    exact .inl rfl
  | ok a => exact .inr ⟨a, rfl, h⟩

theorem precheck_error_ne {needsRoot : Bool} {idx : Option Nat} {k : Nat} {x : ErrCode}
    (h : precheck needsRoot idx k = .error x) : x ≠ .none := by
  rw [precheck_eq] at h
  split at h
  · cases h
    decide
  · split at h
    · cases h
      decide
    · split at h <;> cases h
      decide

theorem canon_error_ne {e : Entry} {w : Word} {x : ErrCode} (h : e.canon w = .error x) : x ≠ .none := by
  rw [canon_eq] at h
  split at h <;> cases h
  decide

theorem product_error_ne {e : Entry} {hi lo : Word} {x : ErrCode} (h : e.product hi lo = .error x) : x ≠ .none := by
  unfold Entry.product at h
  simp only at h
  split at h <;> cases h
  decide

theorem canonicalVec_lanes {k : Nat} {e : Entry} (he : entry? k = some e) {m : Memory} {b : Bank} {vs : List Nat}
    (h : lanes e m b = .ok vs) : canonicalVec e e.dim vs := by
  rw [lanes_ok he h]
  refine ⟨by simp, fun x hx => ?_⟩
  obtain ⟨j, -, rfl⟩ := List.mem_map.1 hx
  unfold Memory.elem
  split
  · exact entry_q_pos he
  · exact Nat.mod_lt _ (entry_q_pos he)

theorem map_ok {α β : Type} {x : Except LaneStop α} {f : α → β} {b : β} (h : x.map f = .ok b) :
    ∃ a, x = .ok a ∧ b = f a := by
  cases x with
  | error e => cases h
  | ok a =>
    cases h
    exact ⟨a, rfl, rfl⟩

/-- Every command completes in one of the ways above. -/
theorem exec_completion {i : Instr} {s t : State} (h : exec i s = .next t) : Completion i s t := by
  cases i with
  | nop =>
    refine completion_scalar (r := .ok s) h (fun u hu => ?_) (fun x hx => by cases hx)
    cases hu
    exact ⟨_, _, rfl⟩
  | modmul k | modadd k | modsub k =>
    refine completion_scalar h (fun u hu => ?_) (fun x hx => ?_)
    · obtain ⟨e, -, hu⟩ := bind_ok hu
      obtain ⟨a, -, hu⟩ := bind_ok hu
      obtain ⟨b, -, hu⟩ := bind_ok hu
      cases hu
      exact ⟨_, _, rfl⟩
    · obtain hx | ⟨e, -, hx⟩ := bind_error hx
      · exact precheck_error_ne hx
      · obtain hx | ⟨a, -, hx⟩ := bind_error hx
        · exact canon_error_ne hx
        · obtain hx | ⟨b, -, hx⟩ := bind_error hx
          · exact canon_error_ne hx
          · cases hx
  | modred k =>
    refine completion_scalar h (fun u hu => ?_) (fun x hx => ?_)
    · obtain ⟨e, -, hu⟩ := bind_ok hu
      obtain ⟨p, -, hu⟩ := bind_ok hu
      cases hu
      exact ⟨_, _, rfl⟩
    · obtain hx | ⟨e, -, hx⟩ := bind_error hx
      · exact precheck_error_ne hx
      · obtain hx | ⟨p, -, hx⟩ := bind_error hx
        · exact product_error_ne hx
        · cases hx
  | bflyct k | bflygs k =>
    refine completion_scalar h (fun u hu => ?_) (fun x hx => ?_)
    · obtain ⟨e, -, hu⟩ := bind_ok hu
      obtain ⟨a, -, hu⟩ := bind_ok hu
      obtain ⟨b, -, hu⟩ := bind_ok hu
      obtain ⟨c, -, hu⟩ := bind_ok hu
      cases hu
      exact ⟨_, _, rfl⟩
    · obtain hx | ⟨e, -, hx⟩ := bind_error hx
      · exact precheck_error_ne hx
      · obtain hx | ⟨a, -, hx⟩ := bind_error hx
        · exact canon_error_ne hx
        · obtain hx | ⟨b, -, hx⟩ := bind_error hx
          · exact canon_error_ne hx
          · obtain hx | ⟨c, -, hx⟩ := bind_error hx
            · exact canon_error_ne hx
            · cases hx
  | twrf k idx | twri k idx | dinv k =>
    refine completion_scalar h (fun u hu => ?_) (fun x hx => ?_)
    · obtain ⟨e, -, hu⟩ := bind_ok hu
      cases hu
      exact ⟨_, _, rfl⟩
    · obtain hx | ⟨e, -, hx⟩ := bind_error hx
      · exact precheck_error_ne hx
      · cases hx
  | nttf k d sa =>
    simp only [exec, execNttf] at h
    split at h
    · rename_i x hx
      cases h
      rw [raiseErr_eq]
      exact .error x (precheck_error_ne hx)
    · rename_i e hp
      have he := precheck_ok hp
      refine completion_vector rfl he h (fun vs hv => ?_)
      obtain ⟨a, ha, rfl⟩ := map_ok hv
      exact canonicalVec_nttForward (entry_q_pos he) (canonicalVec_lanes he ha)
  | ntti k d sa =>
    simp only [exec, execNtti] at h
    split at h
    · rename_i x hx
      cases h
      rw [raiseErr_eq]
      exact .error x (precheck_error_ne hx)
    · rename_i e hp
      have he := precheck_ok hp
      refine completion_vector rfl he h (fun vs hv => ?_)
      obtain ⟨a, ha, rfl⟩ := map_ok hv
      exact canonicalVec_nttInverse (entry_q_pos he) (canonicalVec_lanes he ha)
  | pwmul k d sa sb =>
    simp only [exec, execPwmul] at h
    split at h
    · rename_i x hx
      cases h
      rw [raiseErr_eq]
      exact .error x (precheck_error_ne hx)
    · rename_i e hp
      have he := precheck_ok hp
      refine completion_vector rfl he h (fun vs hv => ?_)
      obtain ⟨ps, hps, rfl⟩ := map_ok hv
      exact canonicalVec_pointwise (entry_q_pos he) (lanePairsFrom_length e _ _ _ _ _ hps)

end Sys2Proof.Machine
end

