-- ==== Sys2Proof/Laws/PerInstr.lean ====
section
/-! SUPPORT. Facts about every command as syntax, one lemma for each constructor. -/

/-! The family EncodedForm: an encoding passes the first two checks of Decode (30_encoding.md R90, R95). -/

namespace Sys2Proof.Laws.EncodedForm

/-- Bits 63:32 of the encoding are 0, and its operation code is assigned. -/
def Statement (i : Instr) : Prop :=
  (encode i).extractLsb' 32 32 = 0 ∧ opcOf ((encode i).extractLsb' 0 32) ∈ assignedOpcs

theorem of_packFields {i : Instr} {ix cf se : Nat} {d sb sa : Bank} {opc : BitVec 8}
    (h : encode i = packFields ix cf se d sb sa opc) (ho : opc ∈ assignedOpcs) : Statement i := by
  unfold Statement
  rw [h, packFields_high, packFields_low, opcOf_layout]
  exact ⟨rfl, ho⟩

theorem nop : Statement .nop := of_packFields rfl (by decide)
theorem modmul (k : Nat) : Statement (.modmul k) := of_packFields rfl (by decide)
theorem modred (k : Nat) : Statement (.modred k) := of_packFields rfl (by decide)
theorem modadd (k : Nat) : Statement (.modadd k) := of_packFields rfl (by decide)
theorem modsub (k : Nat) : Statement (.modsub k) := of_packFields rfl (by decide)
theorem bflyct (k : Nat) : Statement (.bflyct k) := of_packFields rfl (by decide)
theorem bflygs (k : Nat) : Statement (.bflygs k) := of_packFields rfl (by decide)
theorem twrf (k idx : Nat) : Statement (.twrf k idx) := of_packFields rfl (by decide)
theorem twri (k idx : Nat) : Statement (.twri k idx) := of_packFields rfl (by decide)
theorem dinv (k : Nat) : Statement (.dinv k) := of_packFields rfl (by decide)
theorem nttf (k : Nat) (d sa : Bank) : Statement (.nttf k d sa) := of_packFields rfl (by decide)
theorem ntti (k : Nat) (d sa : Bank) : Statement (.ntti k d sa) := of_packFields rfl (by decide)
theorem pwmul (k : Nat) (d sa sb : Bank) : Statement (.pwmul k d sa sb) := of_packFields rfl (by decide)

end Sys2Proof.Laws.EncodedForm
end

