-- ==== Sys2Proof/Tests/Slice0.lean ====
section
/-! SUPPORT. Tests of the model: the form of commands, words written out from the encoding table of spec/30_encoding.md R94,
one-step vectors of spec/95_test_vectors.md, and for every obligation with hypotheses states and operands that meet them. -/

namespace Sys2Proof.Tests

open Sys2Proof Sys2Proof.Machine

/-! ### WellFormed: each check refuses an ill-formed command (R91: CFG has 4 bits, IDX has 12) -/

theorem test_wf_refuses_cfg16 :
    [Instr.modmul 16, .modred 16, .modadd 16, .modsub 16, .bflyct 16, .bflygs 16, .dinv 16, .nttf 16 0 0, .ntti 16 0 0,
      .pwmul 16 0 0 0, .twrf 16 0, .twri 16 0].all (fun i => !i.wf) = true := by decide
theorem test_wf_refuses_idx4096 : [Instr.twrf 1 4096, .twri 1 4096].all (fun i => !i.wf) = true := by decide
theorem test_wf_accepts_the_largest_fields :
    [Instr.nop, .modmul 15, .twrf 15 4095, .twri 15 4095, .pwmul 15 3 3 3].all Instr.wf = true := by decide

/-! ### Decode: words written bit by bit from the patterns of R94 -/

/-- The command of a 64-bit word, none where Decode rejects it. -/
def cmd (c : Word) : Option Instr := (decode c).toOption

theorem test_decode_nop : cmd 0b00000000000000000000000000000000 = some .nop := by decide
theorem test_decode_modmul : cmd 0b00000000000000100000000000000001 = some (.modmul 2) := by decide
theorem test_decode_modred : cmd 0b00000000000010010000000000000010 = some (.modred 9) := by decide
theorem test_decode_modadd : cmd 0b00000000000000110000000000000011 = some (.modadd 3) := by decide
theorem test_decode_modsub : cmd 0b00000000000011110000000000000100 = some (.modsub 15) := by decide
theorem test_decode_bflyct : cmd 0b00000000000000010000000000000101 = some (.bflyct 1) := by decide
theorem test_decode_bflygs : cmd 0b00000000000001000000000000000110 = some (.bflygs 4) := by decide
theorem test_decode_twrf : cmd 0b00010010110000010000000000000111 = some (.twrf 1 300) := by decide
theorem test_decode_twri : cmd 0b10000000000100100100000000000111 = some (.twri 2 2049) := by decide
theorem test_decode_dinv : cmd 0b00000000000000111000000000000111 = some (.dinv 3) := by decide
theorem test_decode_nttf : cmd 0b00000000000000010010000100010000 = some (.nttf 1 2 1) := by decide
theorem test_decode_ntti : cmd 0b00000000000000100001001100010001 = some (.ntti 2 1 3) := by decide
theorem test_decode_pwmul : cmd 0b00000000000000000011100100010010 = some (.pwmul 0 3 1 2) := by decide

/-- R95, R98: bits 63:32, an unassigned opcode, SEL = 3, IDX of DINV, SB of NTTF, a CFG bit of NOP. -/
theorem test_decode_errors :
    [0x0000000100000000, 0x00000008, 0x00000080, 0x0000C007, 0x00108007, 0x00000410, 0x00010000].map
        (fun c : Word => match decode c with | .ok _ => ErrCode.none | .error e => e) =
      [.reservedField, .illegalOpc, .illegalOpc, .reservedField, .reservedField, .reservedField, .reservedField] := by
  decide
theorem test_encode_pwmul : encode (.pwmul 1 2 0 1) = 0x00012412 := by decide
theorem test_asm_pwmul : (Instr.pwmul 1 2 0 1).asm = "PWMUL c1, b2, b0, b1" := by decide

/-! ### One command on operands, from reset: RES0, RES1 and STATUS of section 2 of 95_test_vectors.md -/

/-- Reset with the operand registers written. -/
def ops (a b t : Word) : State := { State.reset with opa := a, opb := b, opt := t }

/-- RES0, RES1 and STATUS of a next state. -/
def seen : Host.Outcome State Fault Refusal → Option (Word × Word × Word)
  | .next t => some (t.res0, t.res1, t.statusWord)
  | .fault _ => none
  | .refused _ => none

theorem test_nop : seen (exec .nop (ops 1 2 3)) = some (0, 0, 0x2) := by decide
theorem test_modmul_m3c :
    seen (exec (.modmul 3) (ops 0xFFFFFFFFFFFFFFFF 0xFFFFFFFFFFFFFFFF 0)) = some (0xFFFFFFFC00000004, 0, 0x2) := by decide
theorem test_modmul_m0d : seen (exec (.modmul 0) (ops 3329 1 0)) = some (0, 0, 0x606) := by decide
theorem test_modred_r3a :
    seen (exec (.modred 3) (ops 0xFFFFFFFFFFFFFFFF 0xFFFFFFFFFFFFFFFF 0)) = some (0xFFFFFFFE00000000, 0, 0x2) := by decide
theorem test_modred_r0d : seen (exec (.modred 0) (ops 0x100000000 0 0)) = some (0, 0, 0x606) := by decide
theorem test_modadd_a0b : seen (exec (.modadd 0) (ops 1664 1665 0)) = some (0, 0, 0x2) := by decide
theorem test_modadd_a3b :
    seen (exec (.modadd 3) (ops 0xFFFFFFFFFFFFFFFF 0xFFFFFFFFFFFFFFFF 0)) = some (0x1FFFFFFFC, 0, 0x2) := by decide
theorem test_modsub_s0a : seen (exec (.modsub 0) (ops 0 1 0)) = some (3328, 0, 0x2) := by decide
theorem test_modsub_s0c : seen (exec (.modsub 0) (ops 0 0 0)) = some (0, 0, 0x2) := by decide
theorem test_bflyct_c1f : seen (exec (.bflyct 1) (ops 100 200 10302)) = some (8237, 4252, 0x2) := by decide
theorem test_bflyct_c1g : seen (exec (.bflyct 1) (ops 5 3 12289)) = some (0, 0, 0x606) := by decide
theorem test_bflygs_g1d : seen (exec (.bflygs 1) (ops 3 5 1)) = some (8, 12287, 0x2) := by decide
theorem test_bflygs_g1e : seen (exec (.bflygs 1) (ops 10402 8076 8974)) = some (6189, 6802, 0x2) := by decide
theorem test_twrf_t1f : seen (exec (.twrf 1 511) (ops 0 0 0)) = some (3315, 0, 0x2) := by decide +kernel
theorem test_twrf_t0c : seen (exec (.twrf 0 300) (ops 0 0 0)) = some (0, 0, 0x406) := by decide
theorem test_twri_t1l : seen (exec (.twri 1 511) (ops 0 0 0)) = some (1987, 0, 0x2) := by decide +kernel
theorem test_twri_t3i : seen (exec (.twri 3 256) (ops 0 0 0)) = some (0xFFFEFFFF00000001, 0, 0x2) := by decide +kernel
theorem test_dinv_t2l : seen (exec (.dinv 2) (ops 0 0 0)) = some (8347681, 0, 0x2) := by decide
theorem test_dinv_t0b : seen (exec (.dinv 0) (ops 0 0 0)) = some (0, 0, 0x406) := by decide

/-! ### The transforms on a small entry: q = 17, DIM = 4, psi = 2 (2^4 = -1 mod 17), 1/4 = 13 mod 17. The expected values are
the evaluations of R191 by hand: 1 + 2x + 3x^2 + 4x^3 at x = 2, 2^5, 2^3, 2^7. -/

/-- A small entry; no entry of the instance. -/
def small : Entry := { q := 17, ew := 16, log2dim := 2, lazy := false, nttOk := true, psi := 2, dinv := 13 }

theorem test_nttf_small : nttForward small [1, 2, 3, 4] = [15, 11, 13, 16] := by decide
theorem test_ntti_small : nttInverse small [15, 11, 13, 16] = [1, 2, 3, 4] := by decide
theorem test_pwmul_small : pointwise small [(15, 2), (16, 16), (0, 5)] = [13, 1, 0] := by decide
theorem test_nttf_n7 : seen (exec (.nttf 0 1 0) (ops 0 0 0)) = some (0, 0, 0x406) := by decide
theorem test_ntti_bad_cfg : seen (exec (.ntti 4 1 0) (ops 0 0 0)) = some (0, 0, 0x306) := by decide
theorem test_pwmul_bad_cfg : seen (exec (.pwmul 15 1 0 0) (ops 0 0 0)) = some (0, 0, 0x306) := by decide

/-! ### Host and step -/

theorem test_cmd_write_sets_busy : (State.reset.hostStep (.write 0x20 8 1)).statusWord = 0x1 := by decide
theorem test_cmd_busy_is_logged :
    ((State.reset.hostStep (.write 0x20 8 1)).hostStep (.write 0x20 8 0)).statusWord = 0x705 := by decide
theorem test_host_busy_is_logged :
    ((State.reset.hostStep (.write 0x20 8 1)).hostStep (.write 0x28 8 9)).statusWord = 0x805 := by decide
theorem test_cfg_info_3 : (State.reset.hostStep (.read 0x168 8)).resp = some ⟨false, some 0x30940⟩ := by decide
theorem test_entry_4_is_slverr : (State.reset.hostStep (.read 0x180 8)).resp = some ⟨true, some 0⟩ := by decide
theorem test_bank_word_512_is_slverr : (State.reset.hostStep (.write 0x11000 8 1)).resp = some ⟨true, none⟩ := by decide
theorem test_bank_word_511_is_stored :
    ((State.reset.hostStep (.write 0x28FF8 8 0x2FE9)).mem.bankWord 3 511) = some 0x2FE9 := by decide
/-- 95_test_vectors.md 1.6: the bytes of 0x2FE9. -/
theorem test_bank_bytes_are_little_endian :
    (State.reset.hostStep (.write 0x10000 8 0x2FE9)).mem =
      [(0x10000, 0xE9), (0x10001, 0x2F), (0x10002, 0), (0x10003, 0), (0x10004, 0), (0x10005, 0), (0x10006, 0),
        (0x10007, 0)] := by decide
theorem test_step_runs_the_fetched_word :
    seen (step ((ops 12288 2 0).withFetchWord 32 0x00010001)) = some (12287, 0, 0x2) := by decide
theorem test_step_reports_illegal_opc : seen (step (State.reset.withFetchWord 32 0x00000013)) = some (0, 0, 0x106) := by
  decide

/-! ### Witnesses: states and operands that meet the hypotheses of each obligation, and each clause, at a boundary -/

/-- BUSY with the command `c`, from reset. -/
def running (c : Word) : State := State.reset.accept c

theorem witness_PowerOnResetsAllHardwareState : ({ running 1 with agenda := [.powerOn] } : State).agenda = .powerOn :: [] :=
  rfl
theorem witness_SoftResetAbortsAndClears :
    (0x7 : Word).getLsbD 0 = true ∧
      ((running 0x00011010).phase = .busy 0x00011010 ∧ cmd 0x00011010 = some (.nttf 1 1 0) ∧ entry? 1 = some entry1) ∧
      (State.reset.phase = .idle) ∧
      ((running 0x00040012).phase = .busy 0x00040012 ∧ cmd 0x00040012 = some (.pwmul 4 0 0 0)) := by
  decide
theorem witness_CtrlWriteStoresEnables : (0xFFFFFFFFFFFFFFFE : Word).getLsbD 0 = false := by decide
theorem witness_DecodeOfEncodeIsIdentity : (Instr.twri 15 4095).wf = true ∧ (Instr.pwmul 0 3 0 3).wf = true := by decide
theorem witness_AcceptedWordsAreEncodings : decode 0xFFFF0007 = .ok (.twrf 15 4095) := rfl
theorem witness_DecodeErrorsInOrder :
    let opcs : List (BitVec 8) := [0x00, 0x01, 0x02, 0x03, 0x04, 0x05, 0x06, 0x07, 0x10, 0x11, 0x12]
    (0x100000000 : Word).extractLsb' 32 32 ≠ 0 ∧
      ((0x08 : Word).extractLsb' 32 32 = 0 ∧ (0x08 : Word).extractLsb' 0 8 ∉ opcs) ∧
      ((0xC007 : Word).extractLsb' 32 32 = 0 ∧ (0xC007 : Word).extractLsb' 0 8 ∈ opcs ∧
        ∀ r ∈ rows, (0xC007 : Word).extractLsb' 0 32 &&& r.mask ≠ r.bits) ∧
      ((0x3F12 : Word).extractLsb' 32 32 = 0 ∧ (0x3F12 : Word).extractLsb' 0 8 ∈ opcs ∧
        ∃ r ∈ rows, (0x3F12 : Word).extractLsb' 0 32 &&& r.mask = r.bits) := by decide
theorem witness_StepRunsDecodedCommand :
    (running 0x00010001).phase = .busy 0x00010001 ∧ (running 0x00010001).turn = .core ∧
      decode 0x00010001 = .ok (.modmul 1) := ⟨rfl, rfl, rfl⟩
theorem witness_StepRejectsUndecodableCommand :
    (running 0x13).phase = .busy 0x13 ∧ (running 0x13).turn = .core ∧ decode 0x13 = .error .illegalOpc :=
  ⟨rfl, rfl, rfl⟩
theorem witness_CmdWriteWhileIdleIsAccepted : ({ State.reset with err := true, done := true } : State).phase = .idle := rfl
theorem witness_CmdWriteWhileBusyOnlyLogs : (running 0x10).phase = .busy 0x10 := rfl
theorem witness_OperandWriteWhileBusyOnlyLogs :
    (running 0x10).phase = .busy 0x10 ∧
      (0x28FF8 : Addr) = BitVec.ofNat 18 (0x10000 + 0x8000 * (3 : Bank).val + 8 * 511) ∧
      (0x10000 : Addr) = BitVec.ofNat 18 (0x10000 + 0x8000 * (0 : Bank).val + 8 * 0) := ⟨rfl, rfl, rfl⟩
theorem witness_HostCannotChangeInputsWhileBusy :
    (running 0x10).busy = true ∧ HostOp.isSoftReset (.write 0x10 8 0x6) = false ∧
      HostOp.isSoftReset (.write 0x28FF8 8 1) = false := by decide
theorem witness_AcceptedCommandCompletes :
    let s : State := { running 0x10 with agenda := [.host (.write 0x20 8 1), .host (.write 0x10 8 6), .core, .core] }
    s.busy = true ∧ ∀ t ∈ s.agenda, t.isReset = false := by decide
theorem witness_AbsentEntryIsBadCfg :
    (Instr.pwmul 4 0 0 0).cfg? = some 4 ∧ (Instr.twrf 15 4095).cfg? = some 15 ∧ (4 : Nat) ≤ 4 := by decide
theorem witness_EntryWithoutRootIsNoRoot :
    [Instr.twrf 0 4095, .twri 0 0, .dinv 0, .nttf 0 1 1, .ntti 0 0 1].all
      (fun i => i.needsRoot && i.cfg? == some 0) = true := by decide

/-- Operands of the scalar commands: the largest in range and the smallest out of range, for a plain and the lazy entry. -/
theorem witness_scalar_operands :
    entry? 0 = some entry0 ∧ entry? 3 = some entry3 ∧ entry0.inRange 3328 = true ∧ entry0.inRange 3329 = false ∧
      entry3.inRange 0xFFFFFFFFFFFFFFFF = true := by decide
theorem witness_ModmulGivesProduct :
    (15 < 16 ∧ (4 : Nat) ≤ 4) ∧ entry? 0 = some entry0 ∧ entry0.inRange (ops 3328 3328 0).opa = true ∧
      entry0.inRange (ops 3328 3328 0).opb = true ∧
      entry0.inRange (ops 3329 0 0).opa = false ∧ entry0.inRange (ops 0 3329 0).opb = false := by decide
theorem witness_NopOnlyCompletes : (0x00010000 : Word).extractLsb' 0 8 = 0 ∧ (0x00010000 : Word) ≠ 0 := by decide
theorem witness_ModredGivesResidue :
    (15 < 16 ∧ (4 : Nat) ≤ 4) ∧
      entry? 0 = some entry0 ∧ ((ops 0xFFFFFFFF 0 0).opb ++ (ops 0xFFFFFFFF 0 0).opa).toNat < 2 ^ (2 * entry0.ew) ∧
      2 ^ (2 * entry0.ew) ≤ ((ops 0x100000000 0 0).opb ++ (ops 0x100000000 0 0).opa).toNat := by decide
theorem witness_ModaddGivesSum :
    (15 < 16 ∧ (4 : Nat) ≤ 4) ∧
      entry? 3 = some entry3 ∧ entry3.inRange (ops 0xFFFFFFFFFFFFFFFF 1 0).opa = true ∧
      entry3.inRange (ops 0xFFFFFFFFFFFFFFFF 1 0).opb = true ∧ entry1.inRange (ops 0 12289 0).opb = false := by decide
theorem witness_ModsubGivesDifference :
    (15 < 16 ∧ (4 : Nat) ≤ 4) ∧
      entry? 2 = some entry2 ∧ entry2.inRange (ops 0 8380416 0).opa = true ∧ entry2.inRange (ops 0 8380416 0).opb = true ∧
      entry2.inRange (ops 8380417 0 0).opa = false := by decide
theorem witness_BflyctGivesButterfly :
    (15 < 16 ∧ (4 : Nat) ≤ 4) ∧
      entry? 1 = some entry1 ∧ entry1.inRange (ops 0 12288 5).opa = true ∧ entry1.inRange (ops 0 12288 5).opb = true ∧
      entry1.inRange (ops 0 12288 5).opt = true ∧ entry1.inRange (ops 0 0 12289).opt = false := by decide
theorem witness_BflygsGivesButterfly :
    (15 < 16 ∧ (4 : Nat) ≤ 4) ∧
      entry? 0 = some entry0 ∧ entry0.inRange (ops 0 3328 3328).opa = true ∧ entry0.inRange (ops 0 3328 3328).opb = true ∧
      entry0.inRange (ops 0 3328 3328).opt = true ∧ entry0.inRange (ops 3329 0 0).opa = false := by decide
theorem witness_TwrfGivesRootPower :
    (15 < 16 ∧ 4095 < 4096 ∧ (4 : Nat) ≤ 4) ∧
      entry? 0 = some entry0 ∧ entry0.nttOk = false ∧ entry? 2 = some entry2 ∧ entry2.nttOk = true ∧
      entry2.dim ≤ 256 ∧ 255 < entry2.dim := by decide
theorem witness_TwriGivesInverseRootPower :
    (15 < 16 ∧ 4095 < 4096 ∧ (4 : Nat) ≤ 4) ∧
      entry? 0 = some entry0 ∧ entry0.nttOk = false ∧ entry? 1 = some entry1 ∧ entry1.nttOk = true ∧
      entry1.dim ≤ 512 ∧ 511 < entry1.dim := by decide
theorem witness_DinvGivesInverseDimension :
    (15 < 16 ∧ (4 : Nat) ≤ 4) ∧
      entry? 0 = some entry0 ∧ entry0.nttOk = false ∧ entry? 3 = some entry3 ∧ entry3.nttOk = true ∧
      ((0xC007 : Word).extractLsb' 0 8 = 7 ∧ (0xC007 : Word).extractLsb' 14 2 = 3) ∧
      ((0x00108007 : Word).extractLsb' 0 8 = 7 ∧ (0x00108007 : Word).extractLsb' 14 2 = 2 ∧
        (0x00108007 : Word).extractLsb' 20 12 ≠ 0) := by decide
theorem witness_ConfigurationEntriesAreLegal : entry? 3 = some entry3 ∧ entry3.lazy = true := by decide
theorem witness_RootsArePrimitive : entry? 3 = some entry3 ∧ entry3.nttOk = true := by decide
theorem witness_TwiddleTablesAreRelated :
    entry? 1 = some entry1 ∧ entry1.nttOk = true ∧ 511 < entry1.dim ∧ 256 + 255 < entry1.dim := by decide
theorem witness_GsButterflyInvertsCtUpToTwo :
    entry? 1 = some entry1 ∧ (ops 12288 200 10302).opa.toNat < entry1.q ∧ (ops 12288 200 10302).opb.toNat < entry1.q ∧
      (ops 12288 200 10302).opt.toNat < entry1.q ∧ (8974 : Word).toNat < entry1.q ∧
      (ops 12288 200 10302).opt.toNat * (8974 : Word).toNat % entry1.q = 1 := by decide

/-- Banks 0 and 1 with words `0 .. DIM_k - 1` all `v` and all `w`. -/
def twoBanks (e : Entry) (v w : Word) : Memory :=
  (Memory.setBank [] 0 (List.replicate e.dim v)).setBank 1 (List.replicate e.dim w)

theorem twoBanks_words {e : Entry} (h : e.dim ≤ 512) (v w : Word) (i : Nat) (hi : i < e.dim) :
    (twoBanks e v w).bankWord 0 i = some v ∧ (twoBanks e v w).bankWord 1 i = some w := by
  constructor
  · rw [twoBanks, bankWord_of_sameOutside (sameOutside_setBank _ _ _) (by simpa using h) 0 i (by omega) (.inl (by decide)),
      bankWord_setBank _ _ _ i (by simpa using hi), List.getElem_replicate]
  · rw [twoBanks, bankWord_setBank _ _ _ i (by simpa using hi), List.getElem_replicate]

theorem twoBanks_ready {e : Entry} (h : e.dim ≤ 512) {v w : Word} (hv : e.inRange v = true) (hw : e.inRange w = true) :
    (twoBanks e v w).ready e 0 ∧ (twoBanks e v w).ready e 1 :=
  ⟨fun i hi => ⟨v, (twoBanks_words h v w i hi).1, hv⟩, fun i hi => ⟨w, (twoBanks_words h v w i hi).2, hw⟩⟩

theorem twoBanks_filled {e : Entry} (h : e.dim ≤ 512) (v w : Word) :
    (twoBanks e v w).filled e 0 ∧ (twoBanks e v w).filled e 1 :=
  ⟨fun i hi => ⟨v, (twoBanks_words h v w i hi).1⟩, fun i hi => ⟨w, (twoBanks_words h v w i hi).2⟩⟩

theorem witness_PwmulGivesLaneProducts :
    15 < 16 ∧ entry? 0 = some entry0 ∧ (twoBanks entry0 3328 3328).ready entry0 0 ∧ (twoBanks entry0 3328 3328).ready entry0 1 :=
  ⟨by decide, rfl, twoBanks_ready (by decide) (by decide) (by decide)⟩
theorem witness_NttfGivesEvaluations :
    15 < 16 ∧ entry? 1 = some entry1 ∧ entry1.nttOk = true ∧ (twoBanks entry1 12288 0).ready entry1 0 :=
  ⟨by decide, rfl, rfl, (twoBanks_ready (by decide) (by decide) (by decide)).1⟩
theorem witness_NttiInterpolates :
    15 < 16 ∧ entry? 3 = some entry3 ∧ entry3.nttOk = true ∧ (twoBanks entry3 0xFFFFFFFFFFFFFFFF 0).ready entry3 0 :=
  ⟨by decide, rfl, rfl, (twoBanks_ready (by decide) (by decide) (by decide)).1⟩
theorem witness_NttRoundTrip :
    entry? 2 = some entry2 ∧ entry2.nttOk = true ∧ (twoBanks entry2 0 8380416).ready entry2 1 :=
  ⟨rfl, rfl, (twoBanks_ready (by decide) (by decide) (by decide)).2⟩
theorem witness_RingMultiplication :
    entry? 3 = some entry3 ∧ entry3.nttOk = true ∧ (0 : Bank) ≠ 1 ∧
      (twoBanks entry3 0xFFFFFFFFFFFFFFFF 1).ready entry3 0 ∧ (twoBanks entry3 0xFFFFFFFFFFFFFFFF 1).ready entry3 1 :=
  ⟨rfl, rfl, by decide, twoBanks_ready (by decide) (by decide) (by decide)⟩
theorem witness_NttOutOfRangeLeavesDestinationUninit :
    entry? 1 = some entry1 ∧ entry1.nttOk = true ∧ (twoBanks entry1 12289 0).filled entry1 0 ∧
      (twoBanks entry1 12289 0).outOfRange entry1 0 :=
  ⟨rfl, rfl, (twoBanks_filled (by decide) _ _).1, 511, 12289, by decide, (twoBanks_words (by decide) _ _ 511 (by decide)).1,
    by decide⟩
theorem witness_PwmulOutOfRangeLeavesDestinationUninit :
    entry? 0 = some entry0 ∧ (twoBanks entry0 0 3329).filled entry0 0 ∧ (twoBanks entry0 0 3329).filled entry0 1 ∧
      (twoBanks entry0 0 3329).outOfRange entry0 1 :=
  ⟨rfl, (twoBanks_filled (by decide) _ _).1, (twoBanks_filled (by decide) _ _).2, 255, 3329, by decide,
    (twoBanks_words (by decide) _ _ 255 (by decide)).2, by decide⟩

/-- Bank 0 with every word of entry 1 but its last one `v`, and the last UNINIT. -/
def lastMissing (v : Word) : Memory := Memory.setBank [] 0 (List.replicate 511 v)

theorem lastMissing_none (v : Word) : (lastMissing v).bankWord 0 511 = none := by
  rw [lastMissing, bankWord_of_sameOutside (sameOutside_setBank _ _ _) (by rw [List.length_replicate]; omega) 0 511 (by omega)
    (.inr (by rw [List.length_replicate]))]
  rfl

/-- In range before the UNINIT word, and out of range before it. -/
theorem witness_UninitSourceRecordsFaultAndCompletes :
    entry? 1 = some entry1 ∧ ((Instr.nttf 1 1 0).needsRoot = true → entry1.nttOk = true) ∧
      ((∃ b j, b ∈ (Instr.nttf 1 1 0).sources ∧ j < entry1.dim ∧ (lastMissing 12288).bankWord b j = none) ∧
        entry1.inRange 12288 = true) ∧
      ((∃ b j, b ∈ (Instr.nttf 1 1 0).sources ∧ j < entry1.dim ∧ (lastMissing 12289).bankWord b j = none) ∧
        (lastMissing 12289).outOfRange entry1 0) := by
  refine ⟨rfl, fun _ => rfl, ⟨⟨0, 511, by decide, by decide, lastMissing_none _⟩, by decide⟩,
    ⟨0, 511, by decide, by decide, lastMissing_none _⟩, 510, 12289, by decide, ?_, by decide⟩
  rw [lastMissing, bankWord_setBank _ _ _ 510 (by rw [List.length_replicate]; omega), List.getElem_replicate]

theorem witness_UninitFaultOnlyFromUninitSource :
    ∃ t, exec (.nttf 1 1 0) State.reset = .next t ∧ State.reset.uninitRead = false ∧ t.uninitRead = true := by
  refine ⟨State.reset.uninitOutcome 1 512, rfl, rfl, ?_⟩
  rcases uninitOutcome_cases State.reset 1 512 with h | h <;> rw [h] <;> rfl
theorem witness_CommandsChangeOnlyTheirResults :
    (∃ t, exec (.bflyct 1) (ops 5 3 2) = .next t) ∧ (∃ t, exec (.nttf 1 1 0) State.reset = .next t) ∧
      (Instr.modmul 1).isButterfly = false ∧ (Instr.nttf 1 1 0).isVector = true ∧ (Instr.dinv 1).isVector = false :=
  ⟨⟨_, rfl⟩, ⟨_, rfl⟩, rfl, rfl, rfl⟩
theorem witness_VectorCommandsWriteOnlyDestination :
    (∃ t, exec (.ntti 1 1 0) State.reset = .next t) ∧ entry? 1 = some entry1 ∧
      (∃ t, exec (.ntti 4 1 0) State.reset = .next t) ∧ entry? 4 = none := ⟨⟨_, rfl⟩, rfl, ⟨_, rfl⟩, rfl⟩
theorem witness_CommandOutputsAreCanonical :
    (Instr.modmul 3).cfg? = some 3 ∧ entry? 3 = some entry3 ∧
      ∃ t, exec (.modmul 3) (ops 0xFFFFFFFFFFFFFFFF 1 0) = .next t ∧ t.uninitRead = false := ⟨rfl, rfl, _, rfl, rfl⟩
theorem witness_ErrIsStickyUntilAcknowledged :
    let s : State := { ops 0 0 0 with err := true, errCode := .badCfg, agenda := [.host (.write 0x18 8 0x2)] }
    (∃ t, step s = .next t) ∧ s.err = true ∧ s.turn.isReset = false ∧
      ∀ op, s.turn = .host op → op.acksBit 2 = false := by
  refine ⟨⟨_, rfl⟩, rfl, rfl, ?_⟩
  intro op h
  obtain rfl := Turn.host.inj (show Turn.host (.write 0x18 8 0x2) = Turn.host op from h)
  rfl
theorem witness_DoneChangesOnlyAsStated :
    (∃ t, step (running 0) = .next t ∧ (running 0).done = false ∧ t.done = true) ∧
      ∃ t, step { State.reset with done := true, agenda := [.host (.write 0x20 8 0)] } = .next t ∧ t.done = false :=
  ⟨⟨_, rfl, rfl, rfl⟩, _, rfl, rfl⟩
theorem witness_BusyChangesOnlyAsStated :
    (∃ t, step (running 0) = .next t ∧ (running 0).busy = true ∧ t.busy = false) ∧
      ∃ t, step { State.reset with agenda := [.host (.write 0x20 8 0)] } = .next t ∧ t.busy = true :=
  ⟨⟨_, rfl, rfl, rfl⟩, _, rfl, rfl⟩
theorem witness_RecordedFaultIsNeverCleared :
    let s : State := { State.reset with uninitRead := true, agenda := [.powerOn] }
    (∃ t, step s = .next t) ∧ s.uninitRead = true := ⟨⟨_, rfl⟩, rfl⟩

/-- BUSY, with an error logged and one bank word defined. -/
def oneWord : State :=
  { running 0x00000001 with
    err := true, errCode := .hostBusy
    mem := [(0x10000, 0xE9), (0x10001, 0x2F), (0x10002, 0), (0x10003, 0), (0x10004, 0), (0x10005, 0), (0x10006, 0),
      (0x10007, 0)] }

theorem oneWord_isSome (a : Nat) : (oneWord.mem.readByte a).isSome = decide (0x10000 ≤ a ∧ a < 0x10008) := by
  simp only [oneWord, Memory.readByte]
  split_ifs <;> simp <;> omega

theorem witness_StepKeepsInvariant : oneWord.Inv ∧ ∃ t, step oneWord = .next t := by
  refine ⟨⟨by decide, ?_, ?_, by decide, by decide, ?_, by decide⟩, _, rfl⟩
  · intro a h
    rw [oneWord_isSome] at h
    refine ⟨0, ?_⟩
    have := of_decide_eq_true h
    unfold inWords
    simp only [Fin.val_zero]
    omega
  · intro a
    rw [oneWord_isSome, oneWord_isSome]
    exact decide_eq_decide.mpr (by omega)
  · intro c h
    exact Phase.busy.inj h

theorem witness_SlverrExactlyWhereNotAdmitted :
    HostOp.notAdmitted (.read 0x00 4) ∧ HostOp.notAdmitted (.read 0x04 8) ∧ HostOp.notAdmitted (.read 0x50 8) ∧
      HostOp.notAdmitted (.read 0x180 8) ∧ HostOp.notAdmitted (.read 0x11000 8) ∧ HostOp.notAdmitted (.read 0x30000 8) ∧
      HostOp.notAdmitted (.write 0x178 8 0) ∧ ¬ HostOp.notAdmitted (.read 0x178 8) ∧
      ¬ HostOp.notAdmitted (.write 0x28FF8 8 0) ∧ ¬ HostOp.notAdmitted (.write 0x18 8 0) := by
  refine ⟨?_, ?_, ?_, ?_, ?_, ?_, ?_, ?_, ?_, ?_⟩ <;> simp [HostOp.notAdmitted, reservedAddr, readOnlyAddr]
theorem witness_RegisterReadsReturnCurrentValue (s : State) :
    ((0x48, s.res1) : Addr × Word) ∈ ([(0x00, 0x4C41524B00070001), (0x08, 0x0000004002000404), (0x10, s.ctrlWord),
      (0x18, s.statusWord), (0x20, s.cmd), (0x28, s.opa), (0x30, s.opb), (0x38, s.opt), (0x40, s.res0), (0x48, s.res1)] :
      List (Addr × Word)) := by simp
theorem witness_ConfigurationRegistersHoldTheTable :
    ((0x178, 0xFF7FFFFF00800001) : Addr × Word) ∈ ([(0x100, 3329), (0x108, 0x0810), (0x110, 0), (0x118, 0),
      (0x120, 12289), (0x128, 0x00010910), (0x130, 10302), (0x138, 12265),
      (0x140, 8380417), (0x148, 0x00010820), (0x150, 1921994), (0x158, 8347681),
      (0x160, 0xFFFFFFFF00000001), (0x168, 0x00030940), (0x170, 0x9D8F2AD78BFED972), (0x178, 0xFF7FFFFF00800001)] :
      List (Addr × Word)) := by decide
theorem witness_BankWriteStoresLittleEndianAndReadsBack : State.reset.phase = .idle ∧ 511 < 512 ∧ 0 < 512 := by decide
theorem witness_OperandWriteWhileIdleStores : State.reset.phase = .idle := rfl
theorem witness_StatusWordLayout :
    ((.hostBusy, 0x08) : ErrCode × BitVec 8) ∈ ([(.none, 0x00), (.illegalOpc, 0x01), (.reservedField, 0x02), (.badCfg, 0x03),
      (.noRoot, 0x04), (.idxRange, 0x05), (.operandRange, 0x06), (.cmdBusy, 0x07), (.hostBusy, 0x08)] :
      List (ErrCode × BitVec 8)) ∧ oneWord.errCode = .hostBusy := by decide
theorem witness_StepIsNextTurn :
    ({ State.reset with agenda := [.host (.read 0 8)] } : State).turn = .host (.read 0 8) ∧
      (State.reset.turn = .core ∧ State.reset.phase = .idle) ∧
      ({ running 0 with agenda := [.powerOn] } : State).turn = .powerOn := ⟨rfl, ⟨rfl, rfl⟩, rfl⟩

end Sys2Proof.Tests
end

section
/-! PROOFS of the scope family (00_scope.md): the configuration table is legal, and every value a command writes is
canonical. -/

namespace Sys2Proof.Machine

/-! ### The configuration table (R6, R30) -/

/-- `Q_3 - 1 = 2^32 * 3 * 5 * 17 * 257 * 65537`, so it has six prime factors. -/
theorem primeFactor_entry3_q_sub_one {r : Nat} (hr : r.Prime) (hd : r ∣ entry3.q - 1) :
    r ∈ [2, 3, 5, 17, 257, 65537] := by
  have hq : entry3.q - 1 = 2 ^ 32 * 3 * 5 * 17 * 257 * 65537 := rfl
  have h17 : Nat.Prime 17 := by norm_num
  have h257 : Nat.Prime 257 := by norm_num
  have h65537 : Nat.Prime 65537 := by norm_num
  simpa only [hq, hr.dvd_mul, hr.prime.dvd_pow_iff_dvd (by decide : 32 ≠ 0),
    Nat.prime_dvd_prime_iff_eq hr Nat.prime_two, Nat.prime_dvd_prime_iff_eq hr Nat.prime_three,
    Nat.prime_dvd_prime_iff_eq hr Nat.prime_five, Nat.prime_dvd_prime_iff_eq hr h17,
    Nat.prime_dvd_prime_iff_eq hr h257, Nat.prime_dvd_prime_iff_eq hr h65537, or_assoc, List.mem_cons,
    List.not_mem_nil, or_false] using hd

/-- Fermat's condition for 7 modulo `Q_3`. -/
theorem seven_pow_entry3_q_sub_one : (7 : ZMod 0xFFFFFFFF00000001) ^ 0xFFFFFFFF00000000 = 1 := by reduce_mod_char

/-- The order of 7 modulo `Q_3` divides no `(Q_3 - 1) / r`, `r` a prime factor of `Q_3 - 1`. -/
theorem seven_pow_entry3_q_sub_one_div : ∀ r ∈ [2, 3, 5, 17, 257, 65537],
    (7 : ZMod 0xFFFFFFFF00000001) ^ (0xFFFFFFFF00000000 / r) ≠ 1 := by
  simp only [List.forall_mem_cons, Nat.reduceDiv]
  reduce_mod_char
  decide

/-- `Q_3` is prime, by Lucas's test with the generator 7. -/
theorem entry3_q_prime : entry3.q.Prime :=
  lucas_primality _ 7 seven_pow_entry3_q_sub_one fun r hr hd =>
    seven_pow_entry3_q_sub_one_div r (primeFactor_entry3_q_sub_one hr hd)

section
variable {k : Nat} {e : Entry} (he : entry? k = some e)
include he

theorem entry_q_prime : e.q.Prime := by
  rcases entry_cases he with ⟨-, rfl⟩ | ⟨-, rfl⟩ | ⟨-, rfl⟩ | ⟨-, rfl⟩
  · norm_num [entry0]
  · norm_num [entry1]
  · norm_num [entry2]
  · exact entry3_q_prime

theorem entry_q_ne_two : e.q ≠ 2 := by
  rcases entry_cases he with ⟨-, rfl⟩ | ⟨-, rfl⟩ | ⟨-, rfl⟩ | ⟨-, rfl⟩ <;> decide

theorem entry_q_lt_two_pow_ew : e.q < 2 ^ e.ew := by
  rcases entry_cases he with ⟨-, rfl⟩ | ⟨-, rfl⟩ | ⟨-, rfl⟩ | ⟨-, rfl⟩ <;> decide

theorem entry_ew_cases : e.ew = 16 ∨ e.ew = 32 ∨ e.ew = 64 := by
  rcases entry_cases he with ⟨-, rfl⟩ | ⟨-, rfl⟩ | ⟨-, rfl⟩ | ⟨-, rfl⟩ <;> decide

theorem entry_lazy_lt : e.lazy = true → 2 ^ e.ew < 2 * e.q := by
  rcases entry_cases he with ⟨-, rfl⟩ | ⟨-, rfl⟩ | ⟨-, rfl⟩ | ⟨-, rfl⟩ <;> decide

theorem entry_dinv_lt : e.dinv < e.q := by
  rcases entry_cases he with ⟨-, rfl⟩ | ⟨-, rfl⟩ | ⟨-, rfl⟩ | ⟨-, rfl⟩ <;> decide

end

/-- Settles O31: the widths and the moduli are read off the table; `Q_3` is prime by Lucas's test. -/
theorem configurationEntriesAreLegal : Obligations.ConfigurationEntriesAreLegal := by
  intro k e he
  have hlt := entry_q_lt_two_pow_ew he
  have hew := entry_ew_cases he
  have hsq : e.q ^ 2 < 2 ^ (2 * e.ew) := by
    rw [Nat.mul_comm, pow_mul]
    exact Nat.pow_lt_pow_left hlt two_ne_zero
  have hwidth : 2 ^ (2 * e.ew) ≤ 2 ^ 128 := Nat.pow_le_pow_right two_pos (by omega)
  exact ⟨entry_q_prime he, (entry_q_prime he).odd_of_ne_two (entry_q_ne_two he), hlt, hsq, hwidth, rfl, entry_dim_le he,
    hew, entry_lazy_lt he⟩

/-! ### The results of a command (R17) -/

/-- RES0 and RES1 of `t` are those of `s` or canonical. -/
def canonicalResults (e : Entry) (s t : State) : Prop :=
  (t.res0 = s.res0 ∨ t.res0.toNat < e.q) ∧ (t.res1 = s.res1 ∨ t.res1.toNat < e.q)

section
variable {k : Nat} {e : Entry} (he : entry? k = some e)
include he

/-- Zero-extension keeps a canonical value (R17). -/
theorem zext64_lt {v : Nat} (hv : v < e.q) : (zext64 v).toNat < e.q := by
  rwa [zext64_toNat (hv.trans (entry_q_lt he))]

theorem canonicalResults_setRes0 (s : State) {v : Nat} (hv : v < e.q) : canonicalResults e s (s.setRes0 v) :=
  ⟨.inr (zext64_lt he hv), .inl rfl⟩

theorem canonicalResults_setRes (s : State) {v w : Nat} (hv : v < e.q) (hw : w < e.q) :
    canonicalResults e s (s.setRes v w) := ⟨.inr (zext64_lt he hv), .inr (zext64_lt he hw)⟩

/-- What runs past Precheck runs with the entry the command names (R96). -/
theorem precheck_bind_ok {β : Type} {needsRoot : Bool} {idx : Option Nat} {f : Entry → Except ErrCode β} {b : β}
    (h : precheck needsRoot idx k >>= f = .ok b) : f e = .ok b := by
  obtain ⟨e', hp, hf⟩ := bind_ok h
  obtain rfl : e = e' := Option.some.inj (he.symm.trans (precheck_ok hp))
  exact hf

/-- What runs past canon_k runs with a canonical value (R11). -/
theorem canon_bind_ok {β : Type} {x : Word} {f : Nat → Except ErrCode β} {b : β} (h : e.canon x >>= f = .ok b) :
    ∃ a, a < e.q ∧ f a = .ok b := by
  obtain ⟨a, ha, hf⟩ := bind_ok h
  cases hx : e.inRange x with
  | true =>
    rw [canon_ok he hx] at ha
    cases ha
    exact ⟨_, Nat.mod_lt _ (entry_q_pos he), hf⟩
  | false =>
    rw [canon_error hx] at ha
    cases ha

theorem condSub_add_lt {a b : Nat} (ha : a < e.q) (hb : b < e.q) : e.condSub (a + b) < e.q := by
  rw [condSub_eq_mod e (by omega)]
  exact Nat.mod_lt _ (entry_q_pos he)

theorem condAdd_sub_lt {a b : Nat} (ha : a < e.q) (hb : b < e.q) : e.condAdd ((a : Int) - (b : Int)) < e.q := by
  rw [condAdd_eq_mod e (by omega) (by omega)]
  exact subMod_lt e (entry_q_pos he) a b

end

section
variable {e : Entry} {s t : State}

/-- A scalar completion writes canonical results where its body does. -/
theorem completeScalar_canonicalResults {r : Except ErrCode State} (h : completeScalar s r = .next t)
    (hok : ∀ u, r = .ok u → canonicalResults e s u) : canonicalResults e s t := by
  obtain ⟨t', ht', ⟨u, hu, rfl⟩ | ⟨x, -, rfl⟩⟩ := completeScalar_next s r <;> rw [h] at ht' <;> cases ht'
  · exact hok u hu
  · exact ⟨.inl rfl, .inl rfl⟩

/-- A vector completion writes neither RES0 nor RES1 (R29). -/
theorem completeVector_canonicalResults {e' : Entry} {d : Bank} {r : Except LaneStop (List Nat)}
    (h : completeVector s e' d r = .next t) : canonicalResults e s t := by
  obtain ⟨t', ht', ⟨vs, -, rfl⟩ | ⟨-, rfl⟩ | ⟨-, rfl⟩⟩ := completeVector_next s e' d r <;> rw [h] at ht' <;> cases ht'
  · exact ⟨.inl rfl, .inl rfl⟩
  · exact ⟨.inl rfl, .inl rfl⟩
  · rcases uninitOutcome_cases s d e'.dim with hu | hu <;> rw [hu] <;> exact ⟨.inl rfl, .inl rfl⟩

end

/-- RES0 and RES1 are unchanged or canonical after every command. -/
theorem exec_canonicalResults {i : Instr} {k : Nat} {e : Entry} {s t : State} (hk : i.cfg? = some k)
    (he : entry? k = some e) (h : exec i s = .next t) : canonicalResults e s t := by
  have hq := entry_q_pos he
  cases i <;> cases hk
  case modmul =>
    refine completeScalar_canonicalResults h fun u hu => ?_
    obtain ⟨a, -, hu⟩ := canon_bind_ok he (precheck_bind_ok he hu)
    obtain ⟨b, -, hu⟩ := canon_bind_ok he hu
    cases hu
    exact canonicalResults_setRes0 he s (reduce_lt e hq _)
  case modred =>
    refine completeScalar_canonicalResults h fun u hu => ?_
    obtain ⟨p, -, hu⟩ := bind_ok (precheck_bind_ok he hu)
    cases hu
    exact canonicalResults_setRes0 he s (reduce_lt e hq _)
  case modadd =>
    refine completeScalar_canonicalResults h fun u hu => ?_
    obtain ⟨a, ha, hu⟩ := canon_bind_ok he (precheck_bind_ok he hu)
    obtain ⟨b, hb, hu⟩ := canon_bind_ok he hu
    cases hu
    exact canonicalResults_setRes0 he s (condSub_add_lt he ha hb)
  case modsub =>
    refine completeScalar_canonicalResults h fun u hu => ?_
    obtain ⟨a, ha, hu⟩ := canon_bind_ok he (precheck_bind_ok he hu)
    obtain ⟨b, hb, hu⟩ := canon_bind_ok he hu
    cases hu
    exact canonicalResults_setRes0 he s (condAdd_sub_lt he ha hb)
  case bflyct =>
    refine completeScalar_canonicalResults h fun x hx => ?_
    obtain ⟨u, -, hx⟩ := canon_bind_ok he (precheck_bind_ok he hx)
    obtain ⟨v, -, hx⟩ := canon_bind_ok he hx
    obtain ⟨w, -, hx⟩ := canon_bind_ok he hx
    cases hx
    exact canonicalResults_setRes he s (addMod_lt e hq _ _) (subMod_lt e hq _ _)
  case bflygs =>
    refine completeScalar_canonicalResults h fun x hx => ?_
    obtain ⟨u, -, hx⟩ := canon_bind_ok he (precheck_bind_ok he hx)
    obtain ⟨v, -, hx⟩ := canon_bind_ok he hx
    obtain ⟨w, -, hx⟩ := canon_bind_ok he hx
    cases hx
    exact canonicalResults_setRes he s (addMod_lt e hq _ _) (reduce_lt e hq _)
  case twrf | twri =>
    refine completeScalar_canonicalResults h fun u hu => ?_
    cases precheck_bind_ok he hu
    exact canonicalResults_setRes0 he s (Nat.mod_lt _ hq)
  case dinv =>
    refine completeScalar_canonicalResults h fun u hu => ?_
    cases precheck_bind_ok he hu
    exact canonicalResults_setRes0 he s (entry_dinv_lt he)
  case nttf | ntti | pwmul =>
    simp only [exec, execNttf, execNtti, execPwmul] at h
    split at h
    · cases h
      rw [raiseErr_eq]
      exact ⟨.inl rfl, .inl rfl⟩
    · exact completeVector_canonicalResults h

/-! ### The bank words a command writes (R17) -/

/-- The entry of a vector command's destination is the one the command names. -/
theorem cfg?_of_vectorDest {i : Instr} {k : Nat} {d : Bank} (h : vectorDest i = some (k, d)) : i.cfg? = some k := by
  cases i <;> cases h <;> rfl

/-- A word after writing a bank is the written one, or the old one. -/
theorem bankWord_setBank_cases (m : Memory) (d : Bank) {vs : List Word} (hn : vs.length ≤ 512) {b : Bank} {j : Nat}
    (hj : j < 512) {w : Word} (h : (m.setBank d vs).bankWord b j = some w) : m.bankWord b j = some w ∨ w ∈ vs := by
  by_cases hd : b ≠ d ∨ vs.length ≤ j
  · exact .inl (bankWord_of_sameOutside (sameOutside_setBank m d vs) hn b j hj hd ▸ h)
  · obtain ⟨rfl, hlt⟩ : b = d ∧ j < vs.length := by simpa using hd
    rw [bankWord_setBank m b vs j hlt] at h
    cases h
    exact .inr (vs.getElem_mem hlt)

/-- A word that is defined after a bank became UNINIT is the old one. -/
theorem bankWord_of_uninitBank (m : Memory) (d : Bank) {n : Nat} (hn : n ≤ 512) {b : Bank} {j : Nat} (hj : j < 512)
    {w : Word} (h : (m.uninitBank d n).bankWord b j = some w) : m.bankWord b j = some w := by
  by_cases hd : b ≠ d ∨ n ≤ j
  · exact bankWord_of_sameOutside (sameOutside_uninitBank m d n) hn b j hj hd ▸ h
  · obtain ⟨rfl, hlt⟩ : b = d ∧ j < n := by simpa using hd
    rw [bankWord_uninitBank m b n j hlt] at h
    cases h

theorem uninitOutcome_uninitRead (s : State) (d : Bank) (n : Nat) : (s.uninitOutcome d n).uninitRead = true := by
  rcases uninitOutcome_cases s d n with h | h <;> rw [h] <;> rfl

/-- Every defined bank word is unchanged or canonical after a completion without UNINIT_READ. -/
theorem bankWord_of_completion {i : Instr} {k : Nat} {e : Entry} {s t : State} (hk : i.cfg? = some k)
    (he : entry? k = some e) (h : Completion i s t) (hu : t.uninitRead = false) {b : Bank} {j : Nat} {w : Word}
    (hj : j < 512) (hw : t.mem.bankWord b j = some w) : s.mem.bankWord b j = some w ∨ w.toNat < e.q := by
  cases h with
  | scalar r0 r1 => exact .inl hw
  | error x hx => exact .inl hw
  | vector k' e' d vs hd he' hv =>
    obtain rfl : k = k' := Option.some.inj (hk.symm.trans (cfg?_of_vectorDest hd))
    obtain rfl : e = e' := Option.some.inj (he.symm.trans he')
    obtain ⟨hlen, hlt⟩ := hv
    have hn : (vs.map zext64).length ≤ 512 := by simpa [hlen] using entry_dim_le he
    refine (bankWord_setBank_cases s.mem d hn hj hw).imp_right fun hmem => ?_
    obtain ⟨v, hv, rfl⟩ := List.mem_map.1 hmem
    exact zext64_lt he (hlt v hv)
  | range k' e' d hd he' => exact .inl (bankWord_of_uninitBank s.mem d (entry_dim_le he') hj hw)
  | uninit k' e' d hd he' =>
    rw [uninitOutcome_uninitRead] at hu
    cases hu

/-- Settles O46: the results command by command, the bank words over the ways a command can complete. -/
theorem commandOutputsAreCanonical : Obligations.CommandOutputsAreCanonical := by
  intro i k e s t hk he h
  obtain ⟨h0, h1⟩ := exec_canonicalResults hk he h
  exact ⟨h0, h1, fun hu _ _ _ hj hw => bankWord_of_completion hk he (exec_completion h) hu hj hw⟩

end Sys2Proof.Machine
end

section
/-! PROOFS of the state family (10_state.md): what a host access and a step can do, the invariant of the machine, the frame
of every command, the flags of STATUS, and the reads and writes of the registers. -/

namespace Sys2Proof.Machine

/-! ### What a host access can do (R66 to R71) -/

/-- A bank read answers and moves at most the count of free values (R64, R70). -/
theorem readBank_eq (s : State) (b : Bank) (i : Nat) : ∃ r f, s.readBank b i = { s with resp := some r, free := f } := by
  unfold State.readBank
  split
  · exact ⟨_, _, rfl⟩
  · split <;> exact ⟨_, _, rfl⟩

/-- A host read moves at most the response and the count of free values (R68). -/
theorem hostRead_eq (s : State) (addr : Addr) (size : Nat) :
    ∃ r f, s.hostRead addr size = { s with resp := some r, free := f } := by
  unfold State.hostRead
  split
  · cases target addr with
    | bank b i => exact readBank_eq s b i
    | id | cap | ctrl | status | cmd | opa | opb | opt | res0 | res1 | cfgQ | cfgInfo | cfgPsi | cfgDinv | reserved =>
      exact ⟨_, s.free, rfl⟩
  · exact ⟨_, s.free, rfl⟩

theorem writeOperand_idle {s : State} (h : s.phase = .idle) (t : State) : s.writeOperand t = t := by
  simp [State.writeOperand, busy_eq_false.2 h]

theorem writeOperand_busy {s : State} (h : s.busy = true) (t : State) : s.writeOperand t = s.logged .hostBusy := by
  simp [State.writeOperand, h]

theorem writeCmd_idle {s : State} (h : s.phase = .idle) (v : Word) : s.writeCmd v = s.accept v := by
  simp [State.writeCmd, busy_eq_false.2 h]

theorem writeCmd_busy {s : State} (h : s.busy = true) (v : Word) : s.writeCmd v = s.logged .cmdBusy := by
  simp [State.writeCmd, h]

/-- A write to CTRL without SOFT_RESET (R23). -/
theorem writeCtrl_enables (s : State) {v : Word} (h : v.getLsbD 0 = false) :
    s.writeCtrl v = { s with doneIe := v.getLsbD 1, errIe := v.getLsbD 2 } := by
  rw [State.writeCtrl, h]
  rfl

/-- A write to CTRL with SOFT_RESET (R241). -/
theorem writeCtrl_softReset (s : State) {v : Word} (h : v.getLsbD 0 = true) :
    s.writeCtrl v = { s.softReset with doneIe := v.getLsbD 1, errIe := v.getLsbD 2 } := by
  rw [State.writeCtrl, h]
  rfl

/-- A write to STATUS as one record (R24). -/
theorem writeStatus_eq (s : State) (v : Word) :
    s.writeStatus v = { s with
      done := s.done && !v.getLsbD 1, err := s.err && !v.getLsbD 2
      errMulti := s.errMulti && !v.getLsbD 2, errCode := if v.getLsbD 2 then .none else s.errCode } := by
  unfold State.writeStatus State.ackDone State.ackErr
  cases v.getLsbD 1 <;> cases v.getLsbD 2 <;> simp

/-- The effects a host access can have (R66 to R71). -/
inductive Access (s : State) (op : HostOp) : State → Prop
  /-- A read, or an access that is not admitted. -/
  | quiet (r : Option Response) (f : Nat) : Access s op { s with resp := r, free := f }
  /-- A write dropped while BUSY: CMD_BUSY or HOST_BUSY. -/
  | dropped (x : ErrCode) (hx : x ≠ .none) (hb : s.busy = true) : Access s op (s.logged x).writeOk
  /-- A CTRL write that stores the enables. -/
  | enables (d e : Bool) : Access s op (State.writeOk { s with doneIe := d, errIe := e })
  /-- A CTRL write with SOFT_RESET. -/
  | softReset (d e : Bool) (hr : op.isSoftReset = true) :
      Access s op (State.writeOk { s.softReset with doneIe := d, errIe := e })
  /-- A STATUS write of the data `v`. -/
  | status (v : Word) (hv : ∀ j, op.acksBit j = v.getLsbD j) : Access s op (s.writeStatus v).writeOk
  /-- A CMD write while IDLE. -/
  | accept (v : Word) (hw : op.writesCmd = true) (hp : s.phase = .idle) : Access s op (s.accept v).writeOk
  /-- A write of an operand register while IDLE. -/
  | operand (a b c : Word) (hp : s.phase = .idle) : Access s op (State.writeOk { s with opa := a, opb := b, opt := c })
  /-- A write of a bank word while IDLE. -/
  | bank (b : Bank) (i : Nat) (v : Word) (hi : i < 512) (hp : s.phase = .idle) :
      Access s op (State.writeOk { s with mem := s.mem.setBankWord b i v })

/-- A write of an operand register or a bank word has its effect while IDLE and is dropped while BUSY (R71). -/
theorem access_writeOperand {s t : State} {op : HostOp} (h : s.phase = .idle → Access s op t.writeOk) :
    Access s op (s.writeOperand t).writeOk := by
  cases hb : s.busy with
  | true =>
    rw [writeOperand_busy hb]
    exact .dropped .hostBusy (by decide) hb
  | false =>
    have hp := busy_eq_false.1 hb
    rw [writeOperand_idle hp]
    exact h hp

/-- Every host access has one of the effects above. -/
theorem hostStep_access (s : State) (op : HostOp) : Access s op (s.hostStep op) := by
  cases op with
  | read addr size =>
    obtain ⟨r, f, h⟩ := hostRead_eq s addr size
    rw [State.hostStep, h]
    exact .quiet r f
  | write addr size v =>
    rw [State.hostStep]
    obtain h | ⟨rfl, rfl, h⟩ | ⟨rfl, rfl, h⟩ | ⟨rfl, rfl, h⟩ | ⟨t, ht, h⟩ := hostWrite_cases s addr size v <;> rw [h]
    · exact .quiet (some ⟨true, none⟩) s.free
    · cases hv : v.getLsbD 0 with
      | false => exact writeCtrl_enables s hv ▸ .enables _ _
      | true => exact writeCtrl_softReset s hv ▸ .softReset _ _ (by simp [HostOp.isSoftReset, hv])
    · exact .status v fun j => by simp [HostOp.acksBit]
    · cases hb : s.busy with
      | true => exact writeCmd_busy hb v ▸ .dropped .cmdBusy (by decide) hb
      | false => exact writeCmd_idle (busy_eq_false.1 hb) v ▸ .accept v rfl (busy_eq_false.1 hb)
    · refine access_writeOperand fun hp => ?_
      obtain rfl | rfl | rfl | ⟨b, i, hi, rfl⟩ := ht
      · exact .operand v s.opb s.opt hp
      · exact .operand s.opa v s.opt hp
      · exact .operand s.opa s.opb v hp
      · exact .bank b i v hi hp

/-! ### What a step can do (R72) -/

theorem decode_error_ne {c : Word} {x : ErrCode} (h : decode c = .error x) : x ≠ .none := by
  unfold decode at h
  simp only at h
  split at h
  · cases h
    decide
  · split at h
    · cases h
      decide
    · split at h <;> cases h
      decide

/-- The completion of an accepted word is that of a command. Where the word does not decode, it is an error's, which every
command can have. -/
theorem completeCmd_completion {s t : State} {c : Word} (h : completeCmd s c = .next t) : ∃ i, Completion i s t := by
  unfold completeCmd at h
  split at h
  · exact ⟨_, exec_completion h⟩
  · rename_i x hx
    cases h
    exact ⟨.nop, raiseErr_eq s x ▸ .error x (decode_error_ne hx)⟩

/-- The transitions a step can make (R72, R216, R240, R242). -/
inductive Transition (s : State) : State → Prop
  /-- The turn of an IDLE core. -/
  | idle (ht : s.turn = .core) (hp : s.phase = .idle) : Transition s s.dequeue
  /-- The completion of the running command. -/
  | complete (i : Instr) (t : State) (ht : s.turn = .core) (hb : s.busy = true) (hc : Completion i s.dequeue t) :
      Transition s t
  /-- A host access. -/
  | host (op : HostOp) (t : State) (ht : s.turn = .host op) (ha : Access s.dequeue op t) : Transition s t
  /-- Power-on reset. -/
  | powerOn (ht : s.turn = .powerOn) : Transition s s.dequeue.powerOn

/-- Every step makes one of the transitions above. -/
theorem step_transition {s t : State} (h : step s = .next t) : Transition s t := by
  rw [step_eq] at h
  cases ht : s.turn with
  | core =>
    rw [ht, takeTurn] at h
    cases hp : s.phase with
    | idle =>
      rw [coreStep_idle (s := s.dequeue) hp] at h
      cases h
      exact .idle ht hp
    | busy c =>
      rw [coreStep_busy (s := s.dequeue) hp] at h
      obtain ⟨i, hc⟩ := completeCmd_completion h
      exact .complete i t ht (busy_eq_true.2 ⟨c, hp⟩) hc
  | host op =>
    rw [ht] at h
    cases h
    exact .host op _ ht (hostStep_access _ op)
  | powerOn =>
    rw [ht] at h
    cases h
    exact .powerOn ht

/-! ### What a completion leaves (R216 to R218, R232) -/

section
variable {i : Instr} {s t : State}

/-- A completion writes RES0, RES1 and the banks, or logs an error and writes the banks at most. -/
theorem completion_shape (h : Completion i s t) :
    (∃ r0 r1 m f u, t = State.completed { s with res0 := r0, res1 := r1, mem := m, free := f, uninitRead := u }) ∨
      ∃ x m f u, x ≠ .none ∧ t = State.afterError { s with mem := m, free := f, uninitRead := u } x := by
  cases h with
  | scalar r0 r1 => exact .inl ⟨r0, r1, s.mem, s.free, s.uninitRead, rfl⟩
  | error x hx => exact .inr ⟨x, s.mem, s.free, s.uninitRead, hx, rfl⟩
  | vector => exact .inl ⟨s.res0, s.res1, _, s.free, s.uninitRead, rfl⟩
  | range => exact .inr ⟨.operandRange, _, s.free, s.uninitRead, by decide, rfl⟩
  | uninit k e d =>
    rcases uninitOutcome_cases s d e.dim with h | h <;> rw [h]
    · exact .inl ⟨s.res0, s.res1, _, _, true, rfl⟩
    · exact .inr ⟨.operandRange, _, _, true, by decide, rfl⟩

/-- What every completion leaves unchanged. -/
theorem completion_frame (h : Completion i s t) :
    t.doneIe = s.doneIe ∧ t.errIe = s.errIe ∧ t.cmd = s.cmd ∧ t.opa = s.opa ∧ t.opb = s.opb ∧ t.opt = s.opt ∧
      t.agenda = s.agenda ∧ t.resp = s.resp := by
  obtain ⟨r0, r1, m, f, u, rfl⟩ | ⟨x, m, f, u, -, rfl⟩ := completion_shape h <;>
    exact ⟨rfl, rfl, rfl, rfl, rfl, rfl, rfl, rfl⟩

/-- Every completion sets DONE and leaves the core IDLE (R216). -/
theorem completion_done (h : Completion i s t) : t.done = true ∧ t.phase = .idle := by
  obtain ⟨r0, r1, m, f, u, rfl⟩ | ⟨x, m, f, u, -, rfl⟩ := completion_shape h <;> exact ⟨rfl, rfl⟩

/-- The error fields are unchanged, or one error is logged and RES0 and RES1 stay (R217, R218). -/
theorem completion_log (h : Completion i s t) :
    (t.err = s.err ∧ t.errMulti = s.errMulti ∧ t.errCode = s.errCode) ∨
      (t.res0 = s.res0 ∧ t.res1 = s.res1 ∧ t.err = true ∧ t.errMulti = (s.errMulti || s.err) ∧
        (s.err = true → t.errCode = s.errCode)) := by
  obtain ⟨r0, r1, m, f, u, rfl⟩ | ⟨x, m, f, u, -, rfl⟩ := completion_shape h
  · exact .inl ⟨rfl, rfl, rfl⟩
  · exact .inr ⟨rfl, rfl, rfl, rfl, fun he => if_pos he⟩

theorem uninitOutcome_mem (s : State) (d : Bank) (n : Nat) :
    (s.uninitOutcome d n).mem = s.mem.setBank d (freeWords (s.free + 1) n) := by
  rcases uninitOutcome_cases s d n with h | h <;> rw [h] <;> rfl

/-- A completion leaves the banks, or writes `DIM_k` words of bank D, or makes them UNINIT. -/
theorem completion_mem (h : Completion i s t) :
    t.mem = s.mem ∨ ∃ k e d, vectorDest i = some (k, d) ∧ entry? k = some e ∧
      ((∃ vs, vs.length = e.dim ∧ t.mem = s.mem.setBank d vs) ∨ t.mem = s.mem.uninitBank d e.dim) := by
  cases h with
  | scalar | error => exact .inl rfl
  | vector k e d vs hd he hv => exact .inr ⟨k, e, d, hd, he, .inl ⟨_, by simpa using hv.1, rfl⟩⟩
  | range k e d hd he => exact .inr ⟨k, e, d, hd, he, .inr rfl⟩
  | uninit k e d hd he =>
    exact .inr ⟨k, e, d, hd, he, .inl ⟨_, freeWords_length _ _, uninitOutcome_mem s d e.dim⟩⟩

/-- A command without a destination bank leaves the banks and the count of free values. -/
theorem completion_of_no_vectorDest (h : Completion i s t) (hd : vectorDest i = none) :
    t.mem = s.mem ∧ t.free = s.free := by
  cases h with
  | scalar | error => exact ⟨rfl, rfl⟩
  | vector _ _ _ _ hd' | range _ _ _ hd' | uninit _ _ _ hd' =>
    rw [hd] at hd'
    cases hd'

end

/-! ### The invariant of the machine -/

/-- The part of the invariant about the banks (R27, R64). -/
structure Memory.Banked (m : Memory) : Prop where
  wf : m.wf = true
  inBanks : ∀ a, (m.readByte a).isSome = true → inBanks a
  whole : ∀ a, (m.readByte a).isSome = (m.readByte (a - a % 8)).isSome

/-- The part of the invariant about the error fields (R24, R218). -/
def State.ErrorsConsistent (s : State) : Prop :=
  (s.err = false → s.errMulti = false ∧ s.errCode = .none) ∧ (s.err = true → s.errCode ≠ .none)

/-- The part of the invariant about the running command (R25, R215). -/
def State.RunningConsistent (s : State) : Prop := ∀ c, s.phase = .busy c → s.cmd = c ∧ s.done = false

theorem inv_iff {s : State} : s.Inv ↔ s.mem.Banked ∧ s.ErrorsConsistent ∧ s.RunningConsistent := by
  constructor
  · intro h
    exact ⟨⟨h.memWf, h.memInBanks, h.memWhole⟩, ⟨h.errClear, h.errNamed⟩,
      fun c hc => ⟨h.busyCmd c hc, h.busyNotDone (busy_eq_true.2 ⟨c, hc⟩)⟩⟩
  · rintro ⟨⟨hwf, hin, hwhole⟩, ⟨hclear, hnamed⟩, hrun⟩
    exact ⟨hwf, hin, hwhole, hclear, hnamed, fun c hc => (hrun c hc).1, fun hb =>
      (busy_eq_true.1 hb).elim fun c hc => (hrun c hc).2⟩

/-! #### The banks -/

theorem banked_nil : Memory.Banked [] := ⟨rfl, nofun, fun _ => rfl⟩

theorem readByte_writeWords_isSome (m : Memory) (a : Nat) (vs : List Word) (x : Nat) :
    ((m.writeWords a vs).readByte x).isSome = (decide (a ≤ x ∧ x < a + 8 * vs.length) || (m.readByte x).isSome) := by
  rw [readByte_writeWords]
  split
  · rename_i h
    simp only [h, decide_true, Bool.true_or, and_self]
    rw [List.getElem?_eq_getElem (by rw [flatMap_bytesOf_length]; omega), Option.isSome_some]
  · rename_i h
    simp [h]

/-- The bytes of a run of words hold an address with its whole word. -/
theorem wordStart_mem_iff (b : Bank) (i n x : Nat) :
    (bankAddr b i ≤ x - x % 8 ∧ x - x % 8 < bankAddr b i + 8 * n) ↔
      (bankAddr b i ≤ x ∧ x < bankAddr b i + 8 * n) := by
  rw [bankAddr_eq]
  omega

/-- Writing words of a bank keeps the banks whole. -/
theorem banked_writeWords {m : Memory} (h : m.Banked) (b : Bank) (i : Nat) {vs : List Word} (hn : i + vs.length ≤ 512) :
    (m.writeWords (bankAddr b i) vs).Banked where
  wf := wf_writeWords h.wf _ _
  inBanks x hx := by
    simp only [readByte_writeWords_isSome, Bool.or_eq_true, decide_eq_true_eq] at hx
    obtain hx | hx := hx
    · rw [bankAddr_eq] at hx
      exact ⟨b, by omega, by omega⟩
    · exact h.inBanks x hx
  whole x := by
    simp only [readByte_writeWords_isSome, wordStart_mem_iff, h.whole x]

/-- Making words of a bank UNINIT keeps the banks whole. -/
theorem banked_uninitBank {m : Memory} (h : m.Banked) (b : Bank) (n : Nat) : (m.uninitBank b n).Banked where
  wf := wf_uninitBank h.wf b n
  inBanks x hx := by
    rw [Memory.uninitBank, readByte_clear] at hx
    split at hx
    · cases hx
    · exact h.inBanks x hx
  whole x := by
    simp only [Memory.uninitBank, readByte_clear, wordStart_mem_iff]
    split
    · rfl
    · exact h.whole x

theorem banked_setBank {m : Memory} (h : m.Banked) (b : Bank) {vs : List Word} (hn : vs.length ≤ 512) :
    (m.setBank b vs).Banked := banked_writeWords h b 0 (by omega)

theorem banked_setBankWord {m : Memory} (h : m.Banked) (b : Bank) {i : Nat} (hi : i < 512) (v : Word) :
    (m.setBankWord b i v).Banked := banked_writeWords h b i (vs := [v]) hi

/-- An abort leaves the banks, or makes words of one of them UNINIT (R241). -/
theorem banked_abortMem {s : State} (h : s.mem.Banked) : s.abortMem.Banked := by
  unfold State.abortMem
  split
  · exact h
  · split
    · exact h
    · exact banked_uninitBank h _ _

theorem banked_of_completion {i : Instr} {s t : State} (h : s.mem.Banked) (hc : Completion i s t) : t.mem.Banked := by
  obtain ht | ⟨k, e, d, -, he, ⟨vs, hlen, ht⟩ | ht⟩ := completion_mem hc <;> rw [ht]
  · exact h
  · exact banked_setBank h d (hlen ▸ entry_dim_le he)
  · exact banked_uninitBank h d _

/-! #### The error fields and the running command -/

/-- Logging a named error leaves a named code (R218). -/
theorem errorsConsistent_logged {s : State} (h : s.ErrorsConsistent) {x : ErrCode} (hx : x ≠ .none) :
    (s.logged x).ErrorsConsistent := by
  refine ⟨nofun, fun _ => ?_⟩
  rw [logged_errCode]
  split
  · exact h.2 ‹_›
  · exact hx

theorem errorsConsistent_of_completion {i : Instr} {s t : State} (h : s.ErrorsConsistent) (hc : Completion i s t) :
    t.ErrorsConsistent := by
  obtain ⟨r0, r1, m, f, u, rfl⟩ | ⟨x, m, f, u, hx, rfl⟩ := completion_shape hc
  · exact h
  · exact errorsConsistent_logged (s := { s with mem := m, free := f, uninitRead := u }) h hx

/-- A write to STATUS clears the error fields together or leaves them (R223). -/
theorem errorsConsistent_writeStatus {s : State} (h : s.ErrorsConsistent) (v : Word) :
    (s.writeStatus v).ErrorsConsistent := by
  rw [writeStatus_eq]
  cases v.getLsbD 2 with
  | false => simpa [State.ErrorsConsistent] using h
  | true => simp [State.ErrorsConsistent]

theorem runningConsistent_of_idle {s : State} (h : s.phase = .idle) : s.RunningConsistent := by
  intro c hc
  rw [h] at hc
  cases hc

/-- A write to STATUS can clear DONE and does not set it. -/
theorem runningConsistent_writeStatus {s : State} (h : s.RunningConsistent) (v : Word) :
    (s.writeStatus v).RunningConsistent := by
  rw [writeStatus_eq]
  intro c hc
  obtain ⟨hcmd, hdone⟩ := h c hc
  exact ⟨hcmd, by simp [hdone]⟩

/-! #### The transitions -/

theorem inv_of_completion {i : Instr} {s t : State} (h : s.Inv) (hc : Completion i s t) : t.Inv := by
  obtain ⟨hm, he, -⟩ := inv_iff.1 h
  exact inv_iff.2 ⟨banked_of_completion hm hc, errorsConsistent_of_completion he hc,
    runningConsistent_of_idle (completion_done hc).2⟩

theorem inv_of_access {op : HostOp} {s t : State} (h : s.Inv) (ha : Access s op t) : t.Inv := by
  obtain ⟨hm, he, hr⟩ := inv_iff.1 h
  rw [inv_iff]
  cases ha with
  | quiet | enables | operand => exact ⟨hm, he, hr⟩
  | dropped x hx => exact ⟨hm, errorsConsistent_logged he hx, hr⟩
  | softReset => exact ⟨banked_abortMem hm, ⟨fun _ => ⟨rfl, rfl⟩, nofun⟩, runningConsistent_of_idle rfl⟩
  | status v =>
    have hmem : (s.writeStatus v).mem = s.mem := by rw [writeStatus_eq]
    exact ⟨hmem ▸ hm, errorsConsistent_writeStatus he v, runningConsistent_writeStatus hr v⟩
  | accept v => exact ⟨hm, he, fun c hc => ⟨Phase.busy.inj hc, rfl⟩⟩
  | bank b i v hi => exact ⟨banked_setBankWord hm b hi v, he, hr⟩

theorem inv_reset : State.reset.Inv :=
  inv_iff.2 ⟨banked_nil, ⟨fun _ => ⟨rfl, rfl⟩, nofun⟩, runningConsistent_of_idle rfl⟩

/-- Power-on reset meets the invariant from any state. -/
theorem inv_powerOn (s : State) : s.powerOn.Inv := inv_iff.2 (inv_iff.1 inv_reset :)

theorem inv_dequeue {s : State} (h : s.Inv) : s.dequeue.Inv := inv_iff.2 (inv_iff.1 h :)

/-- Settles O51: each of the four transitions keeps the invariant. -/
theorem stepKeepsInvariant : Obligations.StepKeepsInvariant := by
  intro s t hs h
  have hd := inv_dequeue hs
  cases step_transition h with
  | idle => exact hd
  | complete i t ht hb hc => exact inv_of_completion hd hc
  | host op t ht ha => exact inv_of_access hd ha
  | powerOn => exact inv_powerOn _

/-- Settles O2: no bank word, no error and no running command at reset. -/
theorem resetMeetsInvariant : Obligations.ResetMeetsInvariant := inv_reset

/-! ### The frame of the commands (R29, R35) -/

section
variable {i : Instr} {s t : State}

/-- A scalar completion leaves RES1 where its body does. -/
theorem completeScalar_res1 {r : Except ErrCode State} (h : completeScalar s r = .next t)
    (hok : ∀ u, r = .ok u → u.res1 = s.res1) : t.res1 = s.res1 := by
  obtain ⟨t', ht', ⟨u, hu, rfl⟩ | ⟨x, -, rfl⟩⟩ := completeScalar_next s r <;> rw [h] at ht' <;> cases ht'
  · exact hok u hu
  · rfl

/-- A vector completion writes neither RES0 nor RES1. -/
theorem completeVector_res {e : Entry} {d : Bank} {r : Except LaneStop (List Nat)}
    (h : completeVector s e d r = .next t) : t.res0 = s.res0 ∧ t.res1 = s.res1 := by
  obtain ⟨t', ht', ⟨vs, -, rfl⟩ | ⟨-, rfl⟩ | ⟨-, rfl⟩⟩ := completeVector_next s e d r <;> rw [h] at ht' <;> cases ht'
  · exact ⟨rfl, rfl⟩
  · exact ⟨rfl, rfl⟩
  · rcases uninitOutcome_cases s d e.dim with hu | hu <;> rw [hu] <;> exact ⟨rfl, rfl⟩

/-- NTTF, NTTI and PWMUL write neither RES0 nor RES1. -/
theorem exec_vector_res (hv : i.isVector = true) (h : exec i s = .next t) : t.res0 = s.res0 ∧ t.res1 = s.res1 := by
  cases i <;> cases hv
  case nttf | ntti | pwmul =>
    simp only [exec, execNttf, execNtti, execPwmul] at h
    split at h
    · cases h
      rw [raiseErr_eq]
      exact ⟨rfl, rfl⟩
    · exact completeVector_res h

/-- NOP and the vector commands leave RES0. -/
theorem exec_res0 (hi : i = .nop ∨ i.isVector = true) (h : exec i s = .next t) : t.res0 = s.res0 := by
  obtain rfl | hv := hi
  · cases h
    rfl
  · exact (exec_vector_res hv h).1

/-- Only BFLYCT and BFLYGS write RES1. -/
theorem exec_res1 (hi : i.isButterfly = false) (h : exec i s = .next t) : t.res1 = s.res1 := by
  cases i with
  | bflyct | bflygs => cases hi
  | nttf | ntti | pwmul => exact (exec_vector_res rfl h).2
  | nop =>
    cases h
    rfl
  | modmul | modadd | modsub =>
    refine completeScalar_res1 h fun u hu => ?_
    obtain ⟨e, -, hu⟩ := bind_ok hu
    obtain ⟨a, -, hu⟩ := bind_ok hu
    obtain ⟨b, -, hu⟩ := bind_ok hu
    cases hu
    rfl
  | modred =>
    refine completeScalar_res1 h fun u hu => ?_
    obtain ⟨e, -, hu⟩ := bind_ok hu
    obtain ⟨p, -, hu⟩ := bind_ok hu
    cases hu
    rfl
  | twrf | twri | dinv =>
    refine completeScalar_res1 h fun u hu => ?_
    obtain ⟨e, -, hu⟩ := bind_ok hu
    cases hu
    rfl

theorem vectorDest_eq_none (h : i.isVector = false) : vectorDest i = none := by
  cases i <;> cases h <;> rfl

end

/-- Settles O44: RES0 and RES1 command by command, the rest over the ways a command can complete. -/
theorem commandsChangeOnlyTheirResults : Obligations.CommandsChangeOnlyTheirResults := by
  intro i s t h
  have hc := exec_completion h
  obtain ⟨hdoneIe, herrIe, hcmd, hopa, hopb, hopt, hagenda, hresp⟩ := completion_frame hc
  obtain ⟨hdone, hphase⟩ := completion_done hc
  refine ⟨hdoneIe, herrIe, hcmd, hopa, hopb, hopt, hagenda, hresp, hdone, hphase, fun hi => exec_res1 hi h,
    fun hi => exec_res0 hi h, fun hi => ?_, completion_log hc⟩
  obtain ⟨hmem, hfree⟩ := completion_of_no_vectorDest hc (vectorDest_eq_none hi)
  exact ⟨fun a => by rw [hmem], hfree⟩

/-- Settles O45: a completion changes the banks in the words of bank D only, and only with an entry. -/
theorem vectorCommandsWriteOnlyDestination : Obligations.VectorCommandsWriteOnlyDestination := by
  intro k d sa sb i s t hi h
  have hd : vectorDest i = some (k, d) := by rcases hi with rfl | rfl | rfl <;> rfl
  obtain hm | ⟨k', e', d', hd', he', hm⟩ := completion_mem (exec_completion h)
  · exact ⟨fun e _ a _ => by rw [hm], fun _ => hm⟩
  · rw [hd] at hd'
    cases hd'
    refine ⟨fun e he => ?_, fun hn => by simp [he'] at hn⟩
    obtain rfl : e = e' := Option.some.inj (he.symm.trans he')
    obtain ⟨vs, hlen, hm⟩ | hm := hm <;> rw [hm]
    · exact hlen ▸ sameOutside_setBank s.mem d vs
    · exact sameOutside_uninitBank s.mem d e.dim

/-! ### DONE and BUSY (R24) -/

section
variable {s t : State} {op : HostOp}

/-- A host access leaves DONE, or clears it by a soft reset, an acknowledgement or an acceptance. -/
theorem access_done (h : Access s op t) :
    t.done = s.done ∨ (t.done = false ∧
      (op.isSoftReset = true ∨ op.acksBit 1 = true ∨ (op.writesCmd = true ∧ s.busy = false))) := by
  cases h with
  | quiet | dropped | enables | operand | bank => exact .inl rfl
  | softReset d e hr => exact .inr ⟨rfl, .inl hr⟩
  | status v hv =>
    rw [writeOk_done, writeStatus_eq, hv 1]
    cases v.getLsbD 1 with
    | false => exact .inl (Bool.and_true _)
    | true => exact .inr ⟨Bool.and_false _, .inr (.inl rfl)⟩
  | accept v hw hp => exact .inr ⟨rfl, .inr (.inr ⟨hw, busy_eq_false.2 hp⟩)⟩

/-- A host access leaves BUSY, or clears it by a soft reset, or sets it by a CMD write. -/
theorem access_busy (h : Access s op t) :
    t.busy = s.busy ∨ (t.busy = false ∧ op.isSoftReset = true) ∨ (t.busy = true ∧ op.writesCmd = true) := by
  cases h with
  | quiet | dropped | enables | operand | bank => exact .inl rfl
  | softReset d e hr => exact .inr (.inl ⟨rfl, hr⟩)
  | status v => exact .inl (by rw [writeStatus_eq]; rfl)
  | accept v hw => exact .inr (.inr ⟨rfl, hw⟩)

end

section
variable {a b : Bool} {P Q : Prop}

/-- A flag that keeps its value is neither set nor cleared. -/
theorem flag_kept (h : b = a) : (a = false → b = true → P) ∧ (a = true → b = false → Q) := by
  subst h
  cases b <;> simp

/-- A flag that ends as 1 can only have been set. -/
theorem flag_set (h : b = true) (hP : a = false → P) : (a = false → b = true → P) ∧ (a = true → b = false → Q) :=
  ⟨fun ha _ => hP ha, fun _ hb => absurd (h.symm.trans hb) (by decide)⟩

/-- A flag that ends as 0 can only have been cleared. -/
theorem flag_cleared (h : b = false) (hQ : a = true → Q) : (a = false → b = true → P) ∧ (a = true → b = false → Q) :=
  ⟨fun _ hb => absurd (h.symm.trans hb) (by decide), fun ha _ => hQ ha⟩

end

/-- Settles O48: a core's turn sets DONE by completion alone, and neither a host access nor power-on reset sets it. -/
theorem doneChangesOnlyAsStated : Obligations.DoneChangesOnlyAsStated := by
  intro s t h
  cases step_transition h with
  | idle => exact flag_kept rfl
  | complete i t ht hb hc => exact flag_set (completion_done hc).1 fun _ => ⟨hb, ht⟩
  | host op t ht ha =>
    obtain hs | ⟨hf, hop⟩ := access_done ha
    · exact flag_kept hs
    · rw [ht]
      exact flag_cleared hf fun _ => hop.imp id fun hop => ⟨op, rfl, hop⟩
  | powerOn ht => exact flag_cleared rfl fun _ => .inl (ht ▸ rfl)

/-- Settles O49: no core's turn sets BUSY, and a host access changes it by a soft reset or a CMD write alone. -/
theorem busyChangesOnlyAsStated : Obligations.BusyChangesOnlyAsStated := by
  intro s t h
  cases step_transition h with
  | idle => exact flag_kept rfl
  | complete i t ht hb hc => exact flag_cleared (busy_eq_false.2 (completion_done hc).2) fun _ => .inl ht
  | host op t ht ha =>
    rw [ht]
    obtain hs | ⟨hf, hr⟩ | ⟨hb, hw⟩ := access_busy ha
    · exact flag_kept hs
    · exact flag_cleared hf fun _ => .inr hr
    · exact flag_set hb fun _ => ⟨op, rfl, hw⟩
  | powerOn ht => exact flag_cleared rfl fun _ => .inr (ht ▸ rfl)

/-! ### STATUS and CTRL (R23, R24, R34) -/

/-- Settles O58: the write is one record, and IRQ is read off it. -/
theorem statusWriteAcknowledges : Obligations.StatusWriteAcknowledges := by
  intro s v
  rw [State.hostStep, hostWrite_status, writeStatus_eq]
  exact ⟨rfl, rfl⟩

theorem errCode_code_le (e : ErrCode) : e.code ≤ 8 := by cases e <;> decide

/-- STATUS as a number: no field overflows into the next. -/
theorem statusWord_toNat (s : State) : s.statusWord.toNat =
    s.busy.toNat + 2 * s.done.toNat + 4 * s.err.toNat + 8 * s.errMulti.toNat + 256 * s.errCode.code := by
  have hb := s.busy.toNat_le
  have hd := s.done.toNat_le
  have he := s.err.toNat_le
  have hm := s.errMulti.toNat_le
  have hc := errCode_code_le s.errCode
  rw [State.statusWord, BitVec.toNat_ofNat, Nat.mod_eq_of_lt (by omega)]

/-- A bit of a word is a flag where the flag is that digit of its value. -/
theorem getLsbD_eq_of_digit {w : Word} {i : Nat} {b : Bool} (h : w.toNat / 2 ^ i % 2 = b.toNat) : w.getLsbD i = b := by
  rw [BitVec.getLsbD, Nat.testBit_eq_decide_div_mod_eq, h]
  cases b <;> rfl

/-- The fields of STATUS. -/
theorem statusWord_fields (s : State) :
    s.statusWord.getLsbD 0 = s.busy ∧ s.statusWord.getLsbD 1 = s.done ∧ s.statusWord.getLsbD 2 = s.err ∧
      s.statusWord.getLsbD 3 = s.errMulti ∧ (s.statusWord.extractLsb' 8 8).toNat = s.errCode.code ∧
      s.statusWord.extractLsb' 4 4 = 0 ∧ s.statusWord.extractLsb' 16 48 = 0 := by
  have hs := statusWord_toNat s
  have hb := s.busy.toNat_le
  have hd := s.done.toNat_le
  have he := s.err.toNat_le
  have hm := s.errMulti.toNat_le
  have hc := errCode_code_le s.errCode
  refine ⟨getLsbD_eq_of_digit ?_, getLsbD_eq_of_digit ?_, getLsbD_eq_of_digit ?_, getLsbD_eq_of_digit ?_, ?_,
    BitVec.eq_of_toNat_eq ?_, BitVec.eq_of_toNat_eq ?_⟩ <;>
    simp only [BitVec.extractLsb'_toNat, Nat.shiftRight_eq_div_pow, BitVec.ofNat_eq_ofNat,
      BitVec.toNat_ofNat, hs] <;> omega

/-- Settles O59: the layout from the value of STATUS, and the numbers of R212 from that of ERR_CODE. -/
theorem statusWordLayout : Obligations.StatusWordLayout := by
  intro s
  obtain ⟨hbusy, hdone, herr, hmulti, hcode, hlow, hhigh⟩ := statusWord_fields s
  refine ⟨hbusy, hdone, herr, hmulti, hcode, hlow, hhigh, errCode_code_le _, fun p hp hs => BitVec.eq_of_toNat_eq ?_⟩
  have hnumbers : p.1.code = p.2.toNat := by
    clear hs
    revert p
    decide
  rw [hcode, hs, hnumbers]

/-- CTRL as the two enables of a word reads as that word's bits 1 and 2. -/
theorem ofNat_enables (v : Word) :
    BitVec.ofNat 64 (2 * (v.getLsbD 1).toNat + 4 * (v.getLsbD 2).toNat) = v &&& 0x6 := by
  have h6 : (0x6 : Word) = .twoPow 64 1 ||| .twoPow 64 2 := rfl
  rw [h6, BitVec.and_or_distrib_left, BitVec.and_twoPow, BitVec.and_twoPow]
  cases v.getLsbD 1 <;> cases v.getLsbD 2 <;> rfl

/-- Settles O5: the write as one record, and the read of it. -/
theorem ctrlWriteStoresEnables : Obligations.CtrlWriteStoresEnables := by
  intro s v hv
  have hw : s.hostStep (.write 0x10 8 v) =
      { s with doneIe := v.getLsbD 1, errIe := v.getLsbD 2, resp := some ⟨false, none⟩ } := by
    rw [State.hostStep, hostWrite_ctrl, writeCtrl_enables s hv]
    rfl
  refine ⟨hw, ?_⟩
  rw [hw, State.hostStep, hostRead_ctrl, answer_resp, State.ctrlWord, ofNat_enables]

/-! ### The registers (R26, R31, R36) -/

/-- Settles O1: the fields are read off the reset state, and its empty memory defines no word. -/
theorem resetLeavesZeroRegistersIdleCoreUninitBanks : Obligations.ResetLeavesZeroRegistersIdleCoreUninitBanks := by
  refine ⟨?_, ?_, rfl, rfl, rfl, rfl, rfl, rfl, rfl, rfl, rfl, rfl, fun b i => readWord_none rfl⟩
  · rw [hostRead_id]
    rfl
  · rw [hostRead_cap]
    rfl

/-- The four registers of an entry stand in its slot of 0x20 bytes from 0x100 (R31, R65). -/
theorem hostRead_cfg (s : State) {k : Nat} {e : Entry} (h : entry? k = some e) :
    s.hostRead (BitVec.ofNat 18 (0x100 + 0x20 * k)) 8 = s.answer (zext64 e.q) ∧
      s.hostRead (BitVec.ofNat 18 (0x108 + 0x20 * k)) 8 = s.answer (zext64 e.info) ∧
      s.hostRead (BitVec.ofNat 18 (0x110 + 0x20 * k)) 8 = s.answer (zext64 e.psi) ∧
      s.hostRead (BitVec.ofNat 18 (0x118 + 0x20 * k)) 8 = s.answer (zext64 e.dinv) := by
  obtain ⟨rfl, rfl⟩ | ⟨rfl, rfl⟩ | ⟨rfl, rfl⟩ | ⟨rfl, rfl⟩ := entry_cases h <;> exact ⟨rfl, rfl, rfl, rfl⟩

/-- Settles O55: the four slots of the configuration window, entry by entry. -/
theorem configurationRegistersHoldTheTable : Obligations.ConfigurationRegistersHoldTheTable := by
  intro s a v h
  obtain ⟨q0, info0, psi0, dinv0⟩ := hostRead_cfg s (k := 0) rfl
  obtain ⟨q1, info1, psi1, dinv1⟩ := hostRead_cfg s (k := 1) rfl
  obtain ⟨q2, info2, psi2, dinv2⟩ := hostRead_cfg s (k := 2) rfl
  obtain ⟨q3, info3, psi3, dinv3⟩ := hostRead_cfg s (k := 3) rfl
  simp only [List.mem_cons, List.not_mem_nil, or_false, Prod.mk.injEq] at h
  obtain ⟨rfl, rfl⟩ | ⟨rfl, rfl⟩ | ⟨rfl, rfl⟩ | ⟨rfl, rfl⟩ | ⟨rfl, rfl⟩ | ⟨rfl, rfl⟩ | ⟨rfl, rfl⟩ | ⟨rfl, rfl⟩ |
    ⟨rfl, rfl⟩ | ⟨rfl, rfl⟩ | ⟨rfl, rfl⟩ | ⟨rfl, rfl⟩ | ⟨rfl, rfl⟩ | ⟨rfl, rfl⟩ | ⟨rfl, rfl⟩ | ⟨rfl, rfl⟩ := h
  exacts [q0, info0, psi0, dinv0, q1, info1, psi1, dinv1, q2, info2, psi2, dinv2, q3, info3, psi3, dinv3]

/-- Settles O57: while IDLE the write of an operand register is not dropped. -/
theorem operandWriteWhileIdleStores : Obligations.OperandWriteWhileIdleStores := by
  intro s v hp
  simp only [State.hostStep, hostWrite_opa, hostWrite_opb, hostWrite_opt, writeOperand_idle hp]
  exact ⟨rfl, rfl, rfl⟩

end Sys2Proof.Machine
end

section
/-! PROOFS of the memory family (20_memory.md): which accesses the block admits and what it answers to the others, reads
without side effect, what a running command is safe from, the bytes of a bank word, and whose turn a step is. -/

namespace Sys2Proof.Machine

/-! ### The address map beside the ranges of R66 (R63 to R67) -/

/-- Something stands at the target, so a read of it is OK (R63). -/
def Target.admitsRead : Target → Bool
  | .reserved => false
  | _ => true

/-- The target is a writable register or a bank word (R67). -/
def Target.admitsWrite : Target → Bool
  | .ctrl | .status | .cmd | .opa | .opb | .opt | .bank _ _ => true
  | _ => false

/-- A target admits exactly what the ranges of R66 and R67 admit at its address. -/
structure Target.Agrees (t : Target) (a : Nat) : Prop where
  read : t.admitsRead = true ↔ ¬ reservedAddr a
  write : t.admitsWrite = true ↔ ¬ (reservedAddr a ∨ readOnlyAddr a)

theorem agrees_reserved {a : Nat} (h : reservedAddr a) : Target.Agrees .reserved a :=
  ⟨by simp [Target.admitsRead, h], by simp [Target.admitsWrite, h]⟩

theorem agrees_readOnly {t : Target} {a : Nat} (hr : t.admitsRead = true) (hw : t.admitsWrite = false)
    (h : readOnlyAddr a) : t.Agrees a := by
  have hn : ¬ reservedAddr a := by
    unfold readOnlyAddr at h
    unfold reservedAddr
    omega
  exact ⟨by simp [hr, hn], by simp [hw, h]⟩

theorem agrees_writable {t : Target} {a : Nat} (hr : t.admitsRead = true) (hw : t.admitsWrite = true)
    (h : (0x10 ≤ a ∧ a < 0x40) ∨ (0x10000 ≤ a ∧ a < 0x30000 ∧ (a - 0x10000) % 0x8000 < 0x1000)) : t.Agrees a := by
  have hn : ¬ reservedAddr a ∧ ¬ readOnlyAddr a := by
    unfold reservedAddr readOnlyAddr
    omega
  exact ⟨by simp [hr, hn.1], by simp [hw, hn]⟩

/-- The registers below 0x50 (R63): CTRL to OPT are writable, the others read-only (R67). -/
theorem agrees_registerAt {a : Nat} (ha : a < 0x100) (h8 : a % 8 = 0) : (registerAt a).Agrees a := by
  rcases registerAt_cases a with ⟨h, rfl⟩ | ⟨h, rfl⟩ | ⟨h, rfl⟩ | ⟨h, rfl⟩ | ⟨h, rfl⟩ | ⟨h, rfl⟩ | ⟨h, rfl⟩ |
    ⟨h, rfl⟩ | ⟨h, rfl⟩ | ⟨h, rfl⟩ | ⟨h, hn⟩ <;> rw [h]
  · exact agrees_readOnly rfl rfl (.inl rfl)
  · exact agrees_readOnly rfl rfl (.inr (.inl rfl))
  iterate 6 exact agrees_writable rfl rfl (.inl (by decide))
  · exact agrees_readOnly rfl rfl (.inr (.inr (.inl rfl)))
  · exact agrees_readOnly rfl rfl (.inr (.inr (.inr (.inl rfl))))
  · simp only [List.mem_cons, List.not_mem_nil, or_false] at hn
    exact agrees_reserved (.inl (by omega))

/-- The four registers of an entry fill its slot, and all are read-only (R31, R67). -/
theorem cfgRegisterAt_readOnly (e : Entry) {o : Nat} (ho : o < 0x20) (h8 : o % 8 = 0) :
    (cfgRegisterAt e o).admitsRead = true ∧ (cfgRegisterAt e o).admitsWrite = false := by
  obtain ⟨h, -⟩ | ⟨h, -⟩ | ⟨h, -⟩ | ⟨h, -⟩ | ⟨-, hn⟩ := cfgRegisterAt_cases e o
  iterate 4 exact h ▸ ⟨rfl, rfl⟩
  simp only [List.mem_cons, List.not_mem_nil, or_false] at hn
  omega

/-- The configuration window holds the entries below NCFG (R65). -/
theorem agrees_configAt {a : Nat} (hlo : 0x100 ≤ a) (hhi : a < 0x300) (h8 : a % 8 = 0) :
    (configAt (a - 0x100)).Agrees a := by
  unfold configAt
  by_cases h : a < 0x180
  · obtain ⟨e, he⟩ := entry_some (k := (a - 0x100) / 0x20) (by omega)
    obtain ⟨hr, hw⟩ := cfgRegisterAt_readOnly e (o := (a - 0x100) % 0x20) (by omega) (by omega)
    rw [he]
    exact agrees_readOnly hr hw (.inr (.inr (.inr (.inr ⟨hlo, h⟩))))
  · rw [entry_none (k := (a - 0x100) / 0x20) (by omega)]
    exact agrees_reserved (.inr (.inl (by omega)))

/-- A bank window holds the words below DIM_MAX (R64). -/
theorem agrees_bankWordAt {a : Nat} (hlo : 0x10000 ≤ a) (hhi : a < 0x30000) :
    (bankWordAt (a - 0x10000)).Agrees a := by
  have hspan : bankSpan = 0x8000 := rfl
  have hdim : Config.dimMax = 512 := rfl
  rw [bankWordAt, hspan, hdim]
  split
  · exact agrees_writable rfl rfl (.inr (by omega))
  · exact agrees_reserved (.inr (.inr (.inl (by omega))))

/-- The whole address map, window by window (R63). -/
theorem agrees_target {addr : Addr} (h8 : addr.toNat % 8 = 0) : (target addr).Agrees addr.toNat := by
  have hbase : bankBase = 0x10000 := rfl
  have hend : bankBase + Config.nbank * bankSpan = 0x30000 := rfl
  rw [target, hend, hbase]
  split
  · exact agrees_registerAt (by assumption) h8
  split
  · exact agrees_configAt (by omega) (by assumption) h8
  split
  · exact agrees_reserved (.inr (.inl (by omega)))
  split
  · exact agrees_bankWordAt (by omega) (by assumption)
  · exact agrees_reserved (.inr (.inr (.inr (by omega))))

/-! ### SLVERR and OK (R66) -/

/-- The machine's own test of an access: its form (R61), and what stands at its address. -/
def HostOp.admits : HostOp → Bool
  | .read addr size => admitted addr size && (target addr).admitsRead
  | .write addr size _ => admitted addr size && (target addr).admitsWrite

theorem admitted_iff {addr : Addr} {size : Nat} : admitted addr size = true ↔ size = 8 ∧ addr.toNat % 8 = 0 := by
  simp [admitted]

/-- The machine's test is that of R66. -/
theorem admits_iff (op : HostOp) : op.admits = true ↔ ¬ op.notAdmitted := by
  cases op with
  | read addr size =>
    simp only [HostOp.admits, HostOp.notAdmitted, Bool.and_eq_true, admitted_iff, not_or, not_not, and_assoc]
    exact and_congr_right fun _ => and_congr_right fun h8 => (agrees_target h8).read
  | write addr size v =>
    simp only [HostOp.admits, HostOp.notAdmitted, Bool.and_eq_true, admitted_iff, not_or, not_not, and_assoc]
    exact and_congr_right fun _ => and_congr_right fun h8 => (agrees_target h8).write.trans not_or

/-- A read the block does not admit (R66). -/
theorem hostRead_not_admits (s : State) {addr : Addr} {size : Nat} (h : (HostOp.read addr size).admits = false) :
    s.hostRead addr size = s.readError := by
  unfold State.hostRead
  split
  · rename_i ha
    rw [HostOp.admits, ha, Bool.true_and] at h
    cases ht : target addr with
    | reserved => rfl
    | _ => rw [ht] at h; cases h
  · rfl

/-- A write the block does not admit (R66, R67). -/
theorem hostWrite_not_admits (s : State) {addr : Addr} {size : Nat} {v : Word}
    (h : (HostOp.write addr size v).admits = false) : s.hostWrite addr size v = s.writeError := by
  unfold State.hostWrite
  split
  · rename_i ha
    rw [HostOp.admits, ha, Bool.true_and] at h
    cases ht : target addr with
    | id | cap | res0 | res1 | cfgQ | cfgInfo | cfgPsi | cfgDinv | reserved => rfl
    | _ => rw [ht] at h; cases h
  · rfl

/-- A bank read is OK, whether or not its word has a value (R64, R70). -/
theorem readBank_ok (s : State) (b : Bank) (i : Nat) : ∃ data, (s.readBank b i).resp = some ⟨false, data⟩ := by
  unfold State.readBank
  split
  · exact ⟨_, rfl⟩
  · split <;> exact ⟨_, rfl⟩

/-- An admitted read is OK. -/
theorem hostRead_ok (s : State) {addr : Addr} {size : Nat} (h : (HostOp.read addr size).admits = true) :
    ∃ data, (s.hostRead addr size).resp = some ⟨false, data⟩ := by
  obtain ⟨ha, ht⟩ := Bool.and_eq_true_iff.1 h
  unfold State.hostRead
  rw [if_pos ha]
  cases htarget : target addr with
  | reserved => rw [htarget] at ht; cases ht
  | bank b i => exact readBank_ok s b i
  | _ => exact ⟨_, rfl⟩

/-- An admitted write is OK, also one that is dropped while BUSY (R71). -/
theorem hostWrite_ok (s : State) {addr : Addr} {size : Nat} {v : Word} (h : (HostOp.write addr size v).admits = true) :
    (s.hostWrite addr size v).resp = some ⟨false, none⟩ := by
  obtain ⟨ha, ht⟩ := Bool.and_eq_true_iff.1 h
  unfold State.hostWrite
  rw [if_pos ha]
  cases htarget : target addr with
  | ctrl | status | cmd | opa | opb | opt | bank => rfl
  | _ => rw [htarget] at ht; cases ht

/-- Settles O52: the machine's test is that of R66; where it fails the access is an error, elsewhere it is OK. -/
theorem slverrExactlyWhereNotAdmitted : Obligations.SlverrExactlyWhereNotAdmitted := by
  intro s op
  have hn : op.notAdmitted ↔ op.admits = false := by simp [← Bool.not_eq_true, admits_iff]
  rw [← admits_iff, hn]
  cases op with
  | read addr size => exact ⟨hostRead_not_admits s, hostRead_ok s⟩
  | write addr size v => exact ⟨hostWrite_not_admits s, fun h => ⟨none, hostWrite_ok s h⟩⟩

/-! ### Reads (R63, R68, R70) -/

/-- Settles O53: the state equation of a read, target by target. -/
theorem readsHaveNoSideEffect : Obligations.ReadsHaveNoSideEffect := hostRead_eq

/-- Settles O54: the ten registers, each at its own address. -/
theorem registerReadsReturnCurrentValue : Obligations.RegisterReadsReturnCurrentValue := by
  intro s a v h
  simp only [List.mem_cons, List.not_mem_nil, or_false, Prod.mk.injEq] at h
  obtain ⟨rfl, rfl⟩ | ⟨rfl, rfl⟩ | ⟨rfl, rfl⟩ | ⟨rfl, rfl⟩ | ⟨rfl, rfl⟩ | ⟨rfl, rfl⟩ | ⟨rfl, rfl⟩ | ⟨rfl, rfl⟩ |
    ⟨rfl, rfl⟩ | ⟨rfl, rfl⟩ := h
  exacts [hostRead_id s, hostRead_cap s, hostRead_ctrl s, hostRead_status s, hostRead_cmd s, hostRead_opa s,
    hostRead_opb s, hostRead_opt s, hostRead_res0 s, hostRead_res1 s]

/-! ### A running command and the host (R71, R73) -/

/-- Settles O17: of the effects an access can have while BUSY, only the soft reset reaches the command, its inputs or the
results. -/
theorem hostCannotChangeInputsWhileBusy : Obligations.HostCannotChangeInputsWhileBusy := by
  intro s op hb hr
  have not_idle : s.phase ≠ .idle := fun hp => by simp [busy_eq_false.2 hp] at hb
  dsimp only
  have ha := hostStep_access s op
  generalize s.hostStep op = t at ha ⊢
  cases ha with
  | quiet | dropped | enables => exact ⟨rfl, rfl, rfl, rfl, rfl, rfl, rfl, rfl⟩
  | softReset _ _ hs => simp [hr] at hs
  | status v =>
    rw [writeStatus_eq]
    exact ⟨rfl, rfl, rfl, rfl, rfl, rfl, rfl, rfl⟩
  | accept _ _ hp | operand _ _ _ hp | bank _ _ _ _ hp => exact absurd hp not_idle

/-! ### The bytes of a bank word (R62, R64) -/

/-- Every byte but those of the word written reads as before. -/
theorem readByte_setBankWord_outside (m : Memory) (b : Bank) (i : Nat) (v : Word) {x : Nat}
    (hx : x < bankAddr b i ∨ bankAddr b i + 8 ≤ x) : (m.setBankWord b i v).readByte x = m.readByte x := by
  rw [Memory.setBankWord, readByte_writeWords, if_neg]
  simp only [List.length_singleton]
  omega

/-- The bank word written reads back. -/
theorem bankWord_setBankWord (m : Memory) (b : Bank) (i : Nat) (v : Word) :
    (m.setBankWord b i v).bankWord b i = some v :=
  readWord_of_bytes (readByte_setBankWord m b i v)

/-- A read while IDLE of a word that has a value returns it (R64). -/
theorem readBank_idle {s : State} {b : Bank} {i : Nat} {v : Word} (hp : s.phase = .idle)
    (hv : s.mem.bankWord b i = some v) : s.readBank b i = s.answer v := by
  simp [State.readBank, busy_eq_false.2 hp, hv]

/-- Settles O56: the write is one bank word set, and the read finds it. -/
theorem bankWriteStoresLittleEndianAndReadsBack : Obligations.BankWriteStoresLittleEndianAndReadsBack := by
  intro s b i v hp hi
  have hw : s.hostStep (.write (BitVec.ofNat 18 (bankAddr b i)) 8 v) =
      { s with mem := s.mem.setBankWord b i v, resp := some ⟨false, none⟩ } := by
    rw [State.hostStep, hostWrite_bank s v b i hi, writeOperand_idle hp]
    rfl
  simp only [← bankAddr_eq]
  rw [hw]
  refine ⟨⟨_, rfl⟩, readByte_setBankWord s.mem b i v, fun x => readByte_setBankWord_outside s.mem b i v, ?_⟩
  rw [State.hostStep, hostRead_bank _ b i hi, readBank_idle (v := v)]
  · rfl
  · exact hp
  · exact bankWord_setBankWord s.mem b i v

/-! ### Whose turn a step is (R72) -/

/-- Settles O60: each kind of turn, read off the step. -/
theorem stepIsNextTurn : Obligations.StepIsNextTurn := by
  intro s
  refine ⟨fun op ht => ?_, fun ht hp => ?_, fun ht => ?_⟩
  · rw [step_eq, ht, takeTurn]
  · rw [step_eq, ht, takeTurn]
    exact coreStep_idle (s := s.dequeue) hp
  · rw [step_eq, ht, takeTurn]

end Sys2Proof.Machine
end

section
/-! PROOFS of the encoding family (30_encoding.md): the rows of the match and mask table, the checks of Decode in their
order, decoding against encoding, and the errors of a command that does not decode or names an absent entry. -/

namespace Sys2Proof

/-! ### The rows select by match and mask (R94) -/

theorem selects_iff {r : Row} {w : CmdWord} : r.selects w = true ↔ w &&& r.mask = r.bits := beq_iff_eq

/-- Two rows that select one word agree on the bits of both masks. -/
theorem bits_and_mask_of_selects {r r' : Row} {w : CmdWord} (h : r.selects w = true) (h' : r'.selects w = true) :
    r.bits &&& r'.mask = r'.bits &&& r.mask := by
  rw [← selects_iff.1 h, ← selects_iff.1 h', BitVec.and_assoc, BitVec.and_assoc, BitVec.and_comm r.mask]

/-- Settles O8: any two rows differ in a bit of both masks. -/
theorem noTwoRowsMatchOneWord : Obligations.NoTwoRowsMatchOneWord := by
  intro w
  have hdiffer : rows.Pairwise fun r r' => r.bits &&& r'.mask ≠ r'.bits &&& r.mask := by decide
  exact hdiffer.imp fun hne ⟨h, h'⟩ => hne (bits_and_mask_of_selects h h')

theorem row_unique {r r' : Row} {w : CmdWord} (hr : r ∈ rows) (hr' : r' ∈ rows) (h : r.selects w = true)
    (h' : r'.selects w = true) : r = r' := by
  by_contra hne
  have : Std.Symm fun r r' : Row => ¬ (r.selects w = true ∧ r'.selects w = true) := ⟨fun _ _ hn => hn ∘ And.symm⟩
  exact (noTwoRowsMatchOneWord w).forall hr hr' hne ⟨h, h'⟩

/-- Every mask holds the whole operation code, so a word that a row selects has an assigned one. -/
theorem opcOf_mem_of_selects {r : Row} {w : CmdWord} (hr : r ∈ rows) (h : r.selects w = true) :
    opcOf w ∈ assignedOpcs := by
  have hrows : ∀ r ∈ rows, opcOf r.mask = .allOnes 8 ∧ opcOf r.bits ∈ assignedOpcs := by decide
  obtain ⟨hmask, hbits⟩ := hrows r hr
  have hopc : opcOf (w &&& r.mask) = opcOf w &&& opcOf r.mask := BitVec.extractLsb'_and
  rw [selects_iff.1 h, hmask, BitVec.and_allOnes] at hopc
  exact hopc ▸ hbits

/-! ### The checks of Decode (R95) -/

section
variable {c : Word}

theorem decode_of_high_ne (h : c.extractLsb' 32 32 ≠ 0) : decode c = .error .reservedField := if_pos h

theorem decode_of_unassigned (h0 : c.extractLsb' 32 32 = 0) (ho : opcOf (c.extractLsb' 0 32) ∉ assignedOpcs) :
    decode c = .error .illegalOpc := by simp [decode, h0, ho]

theorem decode_of_unmatched (h0 : c.extractLsb' 32 32 = 0) (ho : opcOf (c.extractLsb' 0 32) ∈ assignedOpcs)
    (hn : ∀ r ∈ rows, ¬ r.selects (c.extractLsb' 0 32) = true) : decode c = .error .reservedField := by
  have hfind : rows.find? (fun r => r.selects (c.extractLsb' 0 32)) = none := List.find?_eq_none.2 hn
  simp [decode, h0, ho, hfind]

theorem decode_of_row {r : Row} (h0 : c.extractLsb' 32 32 = 0) (hr : r ∈ rows)
    (hs : r.selects (c.extractLsb' 0 32) = true) : decode c = .ok (r.build (c.extractLsb' 0 32)) := by
  cases hfind : rows.find? (fun r => r.selects (c.extractLsb' 0 32)) with
  | none => exact absurd hs (List.find?_eq_none.1 hfind r hr)
  | some r' =>
    obtain rfl : r = r' := row_unique hr (List.mem_of_find?_eq_some hfind) hs (List.find?_some hfind :)
    simp [decode, h0, opcOf_mem_of_selects hr hs, hfind]

/-- A word decodes only by a row that selects it. -/
theorem exists_row_of_decode {i : Instr} (h : decode c = .ok i) :
    c.extractLsb' 32 32 = 0 ∧
      ∃ r ∈ rows, r.selects (c.extractLsb' 0 32) = true ∧ r.build (c.extractLsb' 0 32) = i := by
  by_cases h0 : c.extractLsb' 32 32 = 0
  · by_cases hex : ∃ r ∈ rows, r.selects (c.extractLsb' 0 32) = true
    · obtain ⟨r, hr, hs⟩ := hex
      rw [decode_of_row h0 hr hs] at h
      exact ⟨h0, r, hr, hs, Except.ok.inj h⟩
    · by_cases ho : opcOf (c.extractLsb' 0 32) ∈ assignedOpcs
      · rw [decode_of_unmatched h0 ho fun r hr hs => hex ⟨r, hr, hs⟩] at h
        cases h
      · rw [decode_of_unassigned h0 ho] at h
        cases h
  · rw [decode_of_high_ne h0] at h
    cases h

end

theorem opcOf_low (c : Word) : opcOf (c.extractLsb' 0 32) = c.extractLsb' 0 8 := by
  ext
  simp [opcOf]

/-- Settles O9: one equation of Decode for each clause. -/
theorem decodeErrorsInOrder : Obligations.DecodeErrorsInOrder := by
  intro c
  rw [← opcOf_low]
  exact ⟨decode_of_high_ne, decode_of_unassigned,
    fun h0 ho hn => decode_of_unmatched h0 ho fun r hr hs => hn r hr (selects_iff.1 hs),
    fun h0 _ _ hr hs => decode_of_row h0 hr (selects_iff.2 hs)⟩

/-! ### A row selects the encodings of its command (R91, R93, R94)

A row's mask is 0 on the operand fields of its command and 1 elsewhere, and its match is 0 on every field but SEL and the
operation code. -/

/-- The mask of a field: 0 where the command uses the field, 1 where the field must be 0. -/
def fieldMask (n : Nat) (used : Bool) : BitVec n := bif used then 0#n else .allOnes n

theorem and_fieldMask_eq_zero_iff {n : Nat} (used : Bool) (x : BitVec n) :
    x &&& fieldMask n used = 0 ↔ x = .ofNat n (bif used then x.toNat else 0) := by
  cases used with
  | false =>
    rw [fieldMask, cond_false, BitVec.and_allOnes]
    rfl
  | true => simp [fieldMask]

theorem and_fieldMask_eq_zero_iff_bank (used : Bool) (x : BitVec 2) :
    x &&& fieldMask 2 used = 0 ↔ x = .ofFin (bif used then x.toFin else 0) := by
  cases used with
  | false =>
    rw [fieldMask, cond_false, BitVec.and_allOnes]
    rfl
  | true => simp [fieldMask]

theorem layout_eq_iff {idx idx' : BitVec 12} {cfg cfg' : BitVec 4} {sel sel' d d' sb sb' sa sa' : BitVec 2}
    {opc opc' : BitVec 8} :
    layout idx cfg sel d sb sa opc = layout idx' cfg' sel' d' sb' sa' opc' ↔
      idx = idx' ∧ cfg = cfg' ∧ sel = sel' ∧ d = d' ∧ sb = sb' ∧ sa = sa' ∧ opc = opc' :=
  ⟨layout_inj, by rintro ⟨rfl, rfl, rfl, rfl, rfl, rfl, rfl⟩; rfl⟩

theorem zero_append_eq_packFields_iff {w : CmdWord} {idx cfg sel : Nat} {d sb sa : Bank} {opc : BitVec 8} :
    0#32 ++ w = packFields idx cfg sel d sb sa opc ↔
      w = layout (.ofNat 12 idx) (.ofNat 4 cfg) (.ofNat 2 sel) (.ofFin d) (.ofFin sb) (.ofFin sa) opc := by
  refine ⟨fun h => ?_, fun h => h ▸ rfl⟩
  rw [← packFields_low, ← h]
  exact BitVec.extractLsb'_append_eq_right.symm

/-- `f` gives the row's command from its fields; the flags say which of them the command uses. For each row of R94 the four
equations hold by computation. -/
theorem selects_iff_of_fields {r : Row} {w : CmdWord} (f : (idx cfg : Nat) → (d sb sa : Bank) → Instr)
    (usesIdx usesCfg usesD usesSb usesSa : Bool) (sel : Nat) (opc : BitVec 8)
    (hmask : r.mask = layout (fieldMask 12 usesIdx) (fieldMask 4 usesCfg) (.allOnes 2) (fieldMask 2 usesD)
      (fieldMask 2 usesSb) (fieldMask 2 usesSa) (.allOnes 8) := by rfl)
    (hbits : r.bits = layout 0 0 (.ofNat 2 sel) 0 0 0 opc := by rfl)
    (hbuild : ∀ w, r.build w = f (idxOf w) (cfgOf w) (dOf w) (sbOf w) (saOf w) := by intros; rfl)
    (hencode : ∀ idx cfg d sb sa, encode (f idx cfg d sb sa) =
      packFields (bif usesIdx then idx else 0) (bif usesCfg then cfg else 0) sel (bif usesD then d else 0)
        (bif usesSb then sb else 0) (bif usesSa then sa else 0) opc := by intros; rfl) :
    r.selects w = true ↔ 0#32 ++ w = encode (r.build w) := by
  obtain ⟨idx, cfg, s, d, sb, sa, o, rfl⟩ := exists_layout w
  rw [selects_iff, hmask, hbits, hbuild, hencode, zero_append_eq_packFields_iff, and_layout, layout_eq_iff, layout_eq_iff,
    idxOf_layout, cfgOf_layout, dOf_layout, sbOf_layout, saOf_layout, and_fieldMask_eq_zero_iff usesIdx idx,
    and_fieldMask_eq_zero_iff usesCfg cfg, and_fieldMask_eq_zero_iff_bank usesD d, and_fieldMask_eq_zero_iff_bank usesSb sb,
    and_fieldMask_eq_zero_iff_bank usesSa sa, BitVec.and_allOnes, BitVec.and_allOnes]

/-- A row selects a word exactly where the command it builds is encoded as that word. -/
theorem selects_iff_encode_build {r : Row} {w : CmdWord} (hr : r ∈ rows) :
    r.selects w = true ↔ 0#32 ++ w = encode (r.build w) := by
  simp only [rows, List.mem_cons, List.not_mem_nil, or_false] at hr
  rcases hr with rfl | rfl | rfl | rfl | rfl | rfl | rfl | rfl | rfl | rfl | rfl | rfl | rfl
  · exact selects_iff_of_fields (fun _ _ _ _ _ => .nop) false false false false false 0 0x00
  · exact selects_iff_of_fields (fun _ k _ _ _ => .modmul k) false true false false false 0 0x01
  · exact selects_iff_of_fields (fun _ k _ _ _ => .modred k) false true false false false 0 0x02
  · exact selects_iff_of_fields (fun _ k _ _ _ => .modadd k) false true false false false 0 0x03
  · exact selects_iff_of_fields (fun _ k _ _ _ => .modsub k) false true false false false 0 0x04
  · exact selects_iff_of_fields (fun _ k _ _ _ => .bflyct k) false true false false false 0 0x05
  · exact selects_iff_of_fields (fun _ k _ _ _ => .bflygs k) false true false false false 0 0x06
  · exact selects_iff_of_fields (fun i k _ _ _ => .twrf k i) true true false false false 0 0x07
  · exact selects_iff_of_fields (fun i k _ _ _ => .twri k i) true true false false false 1 0x07
  · exact selects_iff_of_fields (fun _ k _ _ _ => .dinv k) false true false false false 2 0x07
  · exact selects_iff_of_fields (fun _ k d _ a => .nttf k d a) false true true false true 0 0x10
  · exact selects_iff_of_fields (fun _ k d _ a => .ntti k d a) false true true false true 0 0x11
  · exact selects_iff_of_fields (fun _ k d b a => .pwmul k d a b) false true true true true 0 0x12

/-! ### The fields of an encoding read back (R91) -/

section
variable {idx cfg sel : Nat} {d sb sa : Bank} {opc : BitVec 8}

theorem cfgOf_packFields (h : fitsCfg cfg = true) : cfgOf ((packFields idx cfg sel d sb sa opc).extractLsb' 0 32) = cfg := by
  rw [packFields_low, cfgOf_layout]
  exact Nat.mod_eq_of_lt (of_decide_eq_true h)

theorem idxOf_packFields (h : fitsIdx idx = true) : idxOf ((packFields idx cfg sel d sb sa opc).extractLsb' 0 32) = idx := by
  rw [packFields_low, idxOf_layout]
  exact Nat.mod_eq_of_lt (of_decide_eq_true h)

theorem dOf_packFields : dOf ((packFields idx cfg sel d sb sa opc).extractLsb' 0 32) = d := by
  rw [packFields_low, dOf_layout]

theorem sbOf_packFields : sbOf ((packFields idx cfg sel d sb sa opc).extractLsb' 0 32) = sb := by
  rw [packFields_low, sbOf_layout]

theorem saOf_packFields : saOf ((packFields idx cfg sel d sb sa opc).extractLsb' 0 32) = sa := by
  rw [packFields_low, saOf_layout]

end

/-- Every command that fits its encoding is built by its row. -/
theorem exists_row_build_encode {i : Instr} (h : i.wf = true) :
    ∃ r ∈ rows, r.build ((encode i).extractLsb' 0 32) = i := by
  cases i with
  | nop => exact ⟨rows[0], List.getElem_mem _, rfl⟩
  | modmul k => exact ⟨rows[1], List.getElem_mem _, congrArg Instr.modmul (cfgOf_packFields h)⟩
  | modred k => exact ⟨rows[2], List.getElem_mem _, congrArg Instr.modred (cfgOf_packFields h)⟩
  | modadd k => exact ⟨rows[3], List.getElem_mem _, congrArg Instr.modadd (cfgOf_packFields h)⟩
  | modsub k => exact ⟨rows[4], List.getElem_mem _, congrArg Instr.modsub (cfgOf_packFields h)⟩
  | bflyct k => exact ⟨rows[5], List.getElem_mem _, congrArg Instr.bflyct (cfgOf_packFields h)⟩
  | bflygs k => exact ⟨rows[6], List.getElem_mem _, congrArg Instr.bflygs (cfgOf_packFields h)⟩
  | twrf k idx =>
    obtain ⟨hk, hi⟩ := Bool.and_eq_true_iff.1 h
    exact ⟨rows[7], List.getElem_mem _, congrArg₂ Instr.twrf (cfgOf_packFields hk) (idxOf_packFields hi)⟩
  | twri k idx =>
    obtain ⟨hk, hi⟩ := Bool.and_eq_true_iff.1 h
    exact ⟨rows[8], List.getElem_mem _, congrArg₂ Instr.twri (cfgOf_packFields hk) (idxOf_packFields hi)⟩
  | dinv k => exact ⟨rows[9], List.getElem_mem _, congrArg Instr.dinv (cfgOf_packFields h)⟩
  | nttf k d sa =>
    exact ⟨rows[10], List.getElem_mem _,
      congr (congrArg₂ Instr.nttf (cfgOf_packFields h) dOf_packFields) saOf_packFields⟩
  | ntti k d sa =>
    exact ⟨rows[11], List.getElem_mem _,
      congr (congrArg₂ Instr.ntti (cfgOf_packFields h) dOf_packFields) saOf_packFields⟩
  | pwmul k d sa sb =>
    exact ⟨rows[12], List.getElem_mem _,
      congr (congr (congrArg₂ Instr.pwmul (cfgOf_packFields h) dOf_packFields) saOf_packFields) sbOf_packFields⟩

/-! ### Decode inverts encode -/

@[simp] theorem fitsCfg_cfgOf (w : CmdWord) : fitsCfg (cfgOf w) = true := decide_eq_true (w.extractLsb' 16 4).isLt

@[simp] theorem fitsIdx_idxOf (w : CmdWord) : fitsIdx (idxOf w) = true := decide_eq_true (w.extractLsb' 20 12).isLt

theorem wf_build {r : Row} (hr : r ∈ rows) (w : CmdWord) : (r.build w).wf = true := by
  have hrows : ∀ r ∈ rows, (r.build w).wf = true := by simp [rows, Instr.wf]
  exact hrows r hr

theorem encode_high (i : Instr) : (encode i).extractLsb' 32 32 = 0 := by
  cases i <;> exact packFields_high ..

theorem zero_append_low {c : Word} (h0 : c.extractLsb' 32 32 = 0) : 0#32 ++ c.extractLsb' 0 32 = c := by
  have happ : c.extractLsb' 32 32 ++ c.extractLsb' 0 32 = c := by
    rw [BitVec.extractLsb'_append_extractLsb'_eq_extractLsb' (by rfl)]
    exact BitVec.extractLsb'_eq_self
  rwa [h0] at happ

/-- A word decodes to a command exactly where the command is well formed and encoded as the word. -/
theorem decode_eq_ok_iff {c : Word} {i : Instr} : decode c = .ok i ↔ i.wf = true ∧ encode i = c := by
  constructor
  · intro h
    obtain ⟨h0, r, hr, hs, rfl⟩ := exists_row_of_decode h
    refine ⟨wf_build hr _, ?_⟩
    rw [← (selects_iff_encode_build hr).1 hs, zero_append_low h0]
  · rintro ⟨hwf, rfl⟩
    obtain ⟨r, hr, hb⟩ := exists_row_build_encode hwf
    have hs : r.selects ((encode i).extractLsb' 0 32) = true := by
      rw [selects_iff_encode_build hr, hb, zero_append_low (encode_high i)]
    rw [decode_of_row (encode_high i) hr hs, hb]

/-- Settles O6: the command is well formed and encoded as its own encoding. -/
theorem decodeOfEncodeIsIdentity : Obligations.DecodeOfEncodeIsIdentity := fun _ h => decode_eq_ok_iff.2 ⟨h, rfl⟩

/-- Settles O7: what a word decodes to is well formed and encoded as it. -/
theorem acceptedWordsAreEncodings : Obligations.AcceptedWordsAreEncodings := fun _ _ => decode_eq_ok_iff.1

/-- Settles O10: each word is the encoding of its command. -/
theorem specExampleWordsDecode : Obligations.SpecExampleWordsDecode :=
  ⟨decodeOfEncodeIsIdentity (.modmul 2) rfl, decodeOfEncodeIsIdentity (.twrf 1 3) rfl,
    decodeOfEncodeIsIdentity (.nttf 1 0 0) rfl, decodeOfEncodeIsIdentity (.pwmul 1 2 0 1) rfl,
    decodeOfEncodeIsIdentity (.ntti 1 2 2) rfl⟩

/-! ### Errors before a command runs (R96, R98, R217) -/

/-- The index Precheck checks (R96). -/
def Instr.idx? : Instr → Option Nat
  | .twrf _ idx => some idx
  | .twri _ idx => some idx
  | _ => none

namespace Machine

/-- Settles O12: the core's turn, and the error of Decode. -/
theorem stepRejectsUndecodableCommand : Obligations.StepRejectsUndecodableCommand := by
  intro s c x hp ht hx
  rw [step_eq, ht, takeTurn, coreStep_busy (s := s.dequeue) hp, completeCmd, hx]
  exact congrArg Host.Outcome.next (raiseErr_eq s.dequeue x)

theorem completeScalar_bind_error {α : Type} {s : State} {p : Except ErrCode α} {f : α → Except ErrCode State}
    {x : ErrCode} (h : p = .error x) : completeScalar s (p >>= f) = .next (s.afterError x) := by
  rw [h]
  exact completeScalar_error s x

theorem exec_of_precheck_error {i : Instr} {k : Nat} {s : State} {x : ErrCode} (hk : i.cfg? = some k)
    (hp : precheck i.needsRoot i.idx? k = .error x) : exec i s = .next (s.afterError x) := by
  cases i with
  | nop => cases hk
  | modmul _ | modred _ | modadd _ | modsub _ | bflyct _ | bflygs _ | twrf _ _ | twri _ _ | dinv _ =>
    cases hk
    exact completeScalar_bind_error hp
  | nttf k d sa | ntti k d sa =>
    cases hk
    have hp : precheck true none k = .error x := hp
    simp only [exec, execNttf, execNtti, hp, raiseErr_eq]
  | pwmul k d sa sb =>
    cases hk
    have hp : precheck false none k = .error x := hp
    simp only [exec, execPwmul, hp, raiseErr_eq]

/-- Settles O19: Precheck is the first thing a command does. -/
theorem absentEntryIsBadCfg : Obligations.AbsentEntryIsBadCfg := by
  intro i k s hk h
  exact exec_of_precheck_error hk (by rw [precheck_eq, entry_none h])

end Machine

end Sys2Proof
end

section
/-! PROOFS of the modular family (40_modular.md): the words of a command as numbers, and the result, the errors and the
frame of NOP, MODMUL, MODRED, MODADD and MODSUB. -/

namespace Sys2Proof

/-! ### The words of a command (R91, R94) -/

theorem toNat_append_eq {v w : Nat} (x : BitVec v) (y : BitVec w) : (x ++ y).toNat = 2 ^ w * x.toNat + y.toNat := by
  rw [BitVec.toNat_append, Nat.shiftLeft_eq, Nat.mul_comm, ← Nat.two_pow_add_eq_or_of_lt y.isLt]

/-- The value of an encoding, least significant field first (R91). -/
theorem packFields_eq_ofNat {idx cfg sel : Nat} (hi : idx < 4096) (hc : cfg < 16) (hs : sel < 4) (d sb sa : Bank)
    (opc : BitVec 8) :
    packFields idx cfg sel d sb sa opc =
      BitVec.ofNat 64 (opc.toNat + 0x100 * sa.val + 0x400 * sb.val + 0x1000 * d.val + 0x4000 * sel + 0x10000 * cfg +
        0x100000 * idx) := by
  apply BitVec.eq_of_toNat_eq
  have ho := opc.isLt
  simp only [packFields, layout, toNat_append_eq, BitVec.toNat_ofNat, BitVec.toNat_ofFin]
  omega

/-- The one word of a command that fits its encoding is that encoding (R94). -/
theorem encodedAs_of_encode {i : Instr} {w : Nat} (hwf : i.wf = true) (h : encode i = BitVec.ofNat 64 w) :
    i.encodedAs w := fun c => by rw [decode_eq_ok_iff, h, and_iff_right hwf, eq_comm]

/-- The words of a command with no operand field but CFG. -/
theorem encodedAs_of_cfg {i : Instr} {k : Nat} (opc : BitVec 8) (hk : k < 16) (hwf : i.wf = fitsCfg k)
    (h : encode i = packFields 0 k 0 0 0 0 opc) : i.encodedAs (opc.toNat + 0x10000 * k) :=
  encodedAs_of_encode (hwf.trans (decide_eq_true hk))
    (h.trans (packFields_eq_ofNat (by decide) hk (by decide) 0 0 0 opc))

/-- A word with an assigned operation code that encodes no command is RESERVED_FIELD (R95). -/
theorem decode_of_not_encoding {c : Word} (ho : opcOf (c.extractLsb' 0 32) ∈ assignedOpcs)
    (hn : ∀ i, encode i ≠ c) : decode c = .error .reservedField := by
  by_cases h0 : c.extractLsb' 32 32 = 0
  · exact decode_of_unmatched h0 ho fun r hr hs => hn _ (decode_eq_ok_iff.1 (decode_of_row h0 hr hs)).2
  · exact decode_of_high_ne h0

/-- NOP alone is encoded with operation code 0 (R93). -/
theorem eq_nop_of_opcOf_encode {i : Instr} (h : opcOf ((encode i).extractLsb' 0 32) = 0) : i = .nop := by
  cases i <;> simp [encode, packFields_low, opcOf_layout] at h ⊢

/-! ### Operand checks -/

theorem bind_of_ok {α β : Type} {x : Except ErrCode α} {a : α} (h : x = .ok a) (f : α → Except ErrCode β) :
    x >>= f = f a := by
  rw [h]
  rfl

/-- The product of MODRED is the value of (OPB, OPA), where it is in range (R112). -/
theorem product_ok {e : Entry} {hi lo : Word} (h : (hi ++ lo).toNat < 2 ^ (2 * e.ew)) :
    e.product hi lo = .ok (hi ++ lo).toNat := if_neg (Nat.not_le.2 h)

theorem product_error {e : Entry} {hi lo : Word} (h : 2 ^ (2 * e.ew) ≤ (hi ++ lo).toNat) :
    e.product hi lo = .error .operandRange := if_pos h

/-! ### Modular arithmetic on canonical values -/

/-- The product of the elements is the element of the product (R111). -/
theorem reduce_mul_mod (e : Entry) (x y : Nat) : e.reduce (x % e.q * (y % e.q)) = x * y % e.q :=
  (Nat.mul_mod x y e.q).symm

/-- The conditional subtract of R113 gives the residue of the sum. -/
theorem condSub_add_mod {e : Entry} (hq : 0 < e.q) (x y : Nat) : e.condSub (x % e.q + y % e.q) = (x + y) % e.q := by
  have hx := Nat.mod_lt x hq
  have hy := Nat.mod_lt y hq
  rw [condSub_eq_mod e (by omega), ← Nat.add_mod]

/-- The conditional add of R114 gives the floored residue of the difference (R9). -/
theorem condAdd_sub_mod {e : Entry} (hq : 0 < e.q) (x y : Nat) :
    (e.condAdd (((x % e.q : Nat) : Int) - ((y % e.q : Nat) : Int)) : Int) = ((x : Int) - y) % (e.q : Int) := by
  have hx := Nat.mod_lt x hq
  have hy := Nat.mod_lt y hq
  rw [condAdd_eq_mod e (by omega) (by omega), Int.toNat_of_nonneg (Int.emod_nonneg _ (by omega)), Int.natCast_emod,
    Int.natCast_emod, ← Int.sub_emod]

namespace Machine

/-! ### The commands on OPA and OPB -/

/-- The body MODMUL, MODADD and MODSUB share: Precheck, canon_k of OPA and of OPB, and RES0 from their values. -/
def onOpaOpb (f : Entry → Nat → Nat → Nat) (k : Nat) (s : State) : Except ErrCode State := do
  let e ← precheck false none k
  let a ← e.canon s.opa
  let b ← e.canon s.opb
  return s.setRes0 (f e a b)

theorem exec_modmul (k : Nat) (s : State) :
    exec (.modmul k) s = completeScalar s (onOpaOpb (fun e a b => e.reduce (a * b)) k s) := rfl

theorem exec_modadd (k : Nat) (s : State) :
    exec (.modadd k) s = completeScalar s (onOpaOpb (fun e a b => e.condSub (a + b)) k s) := rfl

theorem exec_modsub (k : Nat) (s : State) :
    exec (.modsub k) s = completeScalar s (onOpaOpb (fun e a b => e.condAdd ((a : Int) - (b : Int))) k s) := rfl

section
variable {k : Nat} {e : Entry} (he : entry? k = some e) (f : Entry → Nat → Nat → Nat) {s : State}
include he

/-- With both operands in range the result is of the elements they denote. -/
theorem completeScalar_onOpaOpb_of_inRange (h : e.inRange s.opa = true ∧ e.inRange s.opb = true) :
    completeScalar s (onOpaOpb f k s) =
      .next (State.completed { s with res0 := zext64 (f e (s.opa.toNat % e.q) (s.opb.toNat % e.q)) }) := by
  obtain ⟨ha, hb⟩ := h
  rw [onOpaOpb, bind_of_ok (precheck_plain he), bind_of_ok (canon_ok he ha), bind_of_ok (canon_ok he hb)]
  rfl

/-- An operand out of range is OPERAND_RANGE (R11). -/
theorem completeScalar_onOpaOpb_of_outOfRange (h : e.inRange s.opa = false ∨ e.inRange s.opb = false) :
    completeScalar s (onOpaOpb f k s) = .next (s.afterError .operandRange) := by
  rw [onOpaOpb, bind_of_ok (precheck_plain he)]
  cases ha : e.inRange s.opa with
  | false => exact completeScalar_bind_error (canon_error ha)
  | true =>
    rw [bind_of_ok (canon_ok he ha)]
    exact completeScalar_bind_error (canon_error (h.resolve_left (by simp [ha])))

end

/-- Settles O22: the body shared with MODADD and MODSUB, with the product of the elements. -/
theorem modmulGivesProduct : Obligations.ModmulGivesProduct := by
  intro k s
  refine ⟨fun hk => encodedAs_of_cfg 1 hk rfl rfl, absentEntryIsBadCfg (.modmul k) k s rfl, fun e he => ?_⟩
  rw [exec_modmul]
  refine ⟨fun h => ?_, completeScalar_onOpaOpb_of_outOfRange he _⟩
  rw [completeScalar_onOpaOpb_of_inRange he _ h, reduce_mul_mod, zext64]

/-- Settles O23: the range check of the 128-bit value decides between the residue and the error. -/
theorem modredGivesResidue : Obligations.ModredGivesResidue := by
  intro k s
  refine ⟨fun hk => encodedAs_of_cfg 2 hk rfl rfl, absentEntryIsBadCfg (.modred k) k s rfl, fun e he => ?_⟩
  rw [exec, execModred, bind_of_ok (precheck_plain he)]
  refine ⟨fun h => ?_, fun h => completeScalar_bind_error (product_error h)⟩
  rw [bind_of_ok (product_ok h)]
  rfl

/-- Settles O24: the body shared with MODMUL and MODSUB, with the sum of the elements. -/
theorem modaddGivesSum : Obligations.ModaddGivesSum := by
  intro k s
  refine ⟨fun hk => encodedAs_of_cfg 3 hk rfl rfl, absentEntryIsBadCfg (.modadd k) k s rfl, fun e he => ?_⟩
  rw [exec_modadd]
  refine ⟨fun h => ?_, completeScalar_onOpaOpb_of_outOfRange he _⟩
  rw [completeScalar_onOpaOpb_of_inRange he _ h, condSub_add_mod (entry_q_pos he), zext64]

/-- Settles O25: the body shared with MODMUL and MODADD, with the difference of the elements. -/
theorem modsubGivesDifference : Obligations.ModsubGivesDifference := by
  intro k s
  refine ⟨fun hk => encodedAs_of_cfg 4 hk rfl rfl, absentEntryIsBadCfg (.modsub k) k s rfl, fun e he => ?_⟩
  rw [exec_modsub]
  refine ⟨fun h => ?_, completeScalar_onOpaOpb_of_outOfRange he _⟩
  rw [completeScalar_onOpaOpb_of_inRange he _ h, zext64, ← BitVec.ofInt_natCast, condAdd_sub_mod (entry_q_pos he)]

/-- Settles O21: NOP alone is encoded with operation code 0, and its completion writes nothing else. -/
theorem nopOnlyCompletes : Obligations.NopOnlyCompletes := by
  refine ⟨encodedAs_of_encode rfl rfl, fun c hopc hne => ?_, fun s => completeScalar_ok s s⟩
  rw [← opcOf_low] at hopc
  refine decode_of_not_encoding (hopc ▸ by decide) fun i hi => hne ?_
  obtain rfl := eq_nop_of_opcOf_encode (hi ▸ hopc)
  exact hi.symm

end Machine

end Sys2Proof
end

section
/-! PROOFS of the pointwise family (41_pointwise.md): how a vector command completes with its destination vector and with
OPERAND_RANGE, and what PWMUL gives in both cases. -/

namespace Sys2Proof

/-- The words of a command with bank operands (R91, R94). -/
theorem encodedAs_of_banks {i : Instr} {k : Nat} {d sb sa : Bank} (opc : BitVec 8) (hk : k < 16)
    (hwf : i.wf = fitsCfg k) (h : encode i = packFields 0 k 0 d sb sa opc) :
    i.encodedAs (opc.toNat + 0x100 * sa.val + 0x400 * sb.val + 0x1000 * d.val + 0x10000 * k) :=
  encodedAs_of_encode (hwf.trans (decide_eq_true hk))
    (h.trans (packFields_eq_ofNat (by decide) hk (by decide) d sb sa opc))

namespace Machine

/-! ### The completion of a vector command (R216, R217) -/

/-- A vector of `DIM_k` values becomes the words of bank D, and nothing else is written. -/
theorem completeVector_ok (s : State) {e : Entry} (d : Bank) {vs : List Nat} (hlen : vs.length = e.dim) :
    ∃ m : Memory, completeVector s e d (.ok vs) = .next (State.completed { s with mem := m }) ∧
      (∀ i (hi : i < vs.length), m.bankWord d i = some (zext64 vs[i])) ∧ s.mem.sameOutside m d e.dim := by
  refine ⟨s.mem.setBank d (vs.map zext64), rfl, fun i hi => ?_, ?_⟩
  · rw [bankWord_setBank _ _ _ i (by simpa using hi), List.getElem_map]
  · have h := sameOutside_setBank s.mem d (vs.map zext64)
    rwa [List.length_map, hlen] at h

/-- OPERAND_RANGE leaves the words of bank D UNINIT, and nothing else is written. -/
theorem completeVector_range (s : State) (e : Entry) (d : Bank) :
    ∃ m : Memory, completeVector s e d (.error .range) =
        .next (State.afterError { s with mem := m } .operandRange) ∧
      (∀ j, j < e.dim → m.bankWord d j = none) ∧ s.mem.sameOutside m d e.dim :=
  ⟨s.mem.uninitBank d e.dim, congrArg Host.Outcome.next (raiseErr_eq _ _), bankWord_uninitBank s.mem d e.dim,
    sameOutside_uninitBank s.mem d e.dim⟩

/-! ### Sources out of range (R11) -/

theorem not_ready_of_outOfRange {m : Memory} {e : Entry} {b : Bank} (h : m.outOfRange e b) : ¬ m.ready e b := by
  obtain ⟨i, w, hi, hw, hr⟩ := h
  intro hready
  obtain ⟨w', hw', hr'⟩ := hready i hi
  obtain rfl : w = w' := Option.some.inj (hw.symm.trans hw')
  exact absurd (hr.symm.trans hr') (by decide)

section
variable {k : Nat} {e : Entry} (he : entry? k = some e) {m : Memory}
include he

/-- A lane of a filled bank stops for its range alone. -/
theorem lane_error_of_filled {b : Bank} (hf : m.filled e b) {j : Nat} (hj : j < e.dim) {x : LaneStop}
    (hx : lane e m b j = .error x) : x = .range := by
  obtain ⟨w, hw⟩ := hf j hj
  obtain ⟨-, hl⟩ | ⟨hn, -⟩ | ⟨-, hl⟩ := lane_cases he m b j
  · cases hx.symm.trans hl
  · cases hw.symm.trans hn
  · cases hx.symm.trans hl
    rfl

/-- Of two filled banks, one of them out of range, the first lane without a value stops the read for its range (R140). -/
theorem lanePairs_outOfRange {sa sb : Bank} (ha : m.filled e sa) (hb : m.filled e sb)
    (hr : m.outOfRange e sa ∨ m.outOfRange e sb) : lanePairs e m sa sb = .error .range := by
  obtain ⟨hready, -⟩ | ⟨j, x, hj, -, hx, hl⟩ := lanePairsFrom_cases he m sa sb e.dim 0
  · simp only [Nat.zero_add] at hready
    obtain hr | hr := hr
    · exact absurd (fun j hj => (hready j hj).1) (not_ready_of_outOfRange hr)
    · exact absurd (fun j hj => (hready j hj).2) (not_ready_of_outOfRange hr)
  · rw [Nat.zero_add] at hx
    obtain rfl : x = .range := by
      obtain hx | ⟨-, hx⟩ := hx
      · exact lane_error_of_filled he ha hj hx
      · exact lane_error_of_filled he hb hj hx
    exact hl

/-! ### PWMUL (R140) -/

/-- PWMUL needs no root, so with an entry it runs past Precheck. -/
theorem exec_pwmul (d sa sb : Bank) (s : State) :
    exec (.pwmul k d sa sb) s = completeVector s e d ((lanePairs e s.mem sa sb).map (pointwise e)) := by
  rw [exec, execPwmul, precheck_plain he]

end

/-- Lane `i` of the products is of lane `i` of the sources alone (R141). -/
theorem pointwise_range (e : Entry) (n : Nat) (f g : Nat → Nat) :
    pointwise e ((List.range n).map fun i => (f i, g i)) = (List.range n).map fun i => f i * g i % e.q :=
  List.map_map

/-- Settles O35: two ready banks give all their pairs, and the products of the pairs are the destination vector. -/
theorem pwmulGivesLaneProducts : Obligations.PwmulGivesLaneProducts := by
  intro k d sa sb
  refine ⟨fun hk => encodedAs_of_banks 0x12 hk rfl rfl, fun e s he ha hb => ?_⟩
  rw [exec_pwmul he, lanePairs_ready he ha hb, Except.map, pointwise_range]
  obtain ⟨m, hm, hwords, hout⟩ := completeVector_ok s (e := e) d
    (vs := (List.range e.dim).map fun i => s.mem.elem e sa i * s.mem.elem e sb i % e.q) (by simp)
  refine ⟨m, hm, fun i hi => ?_, hout⟩
  rw [hwords i (by simpa using hi), List.getElem_map, List.getElem_range, zext64]

/-- Settles O41: the read of the pairs stops for the range of a word. -/
theorem pwmulOutOfRangeLeavesDestinationUninit : Obligations.PwmulOutOfRangeLeavesDestinationUninit := by
  intro k e d sa sb s he ha hb hr
  rw [exec_pwmul he, lanePairs_outOfRange he ha hb hr]
  exact completeVector_range s e d

end Machine

end Sys2Proof
end

section
/-! PROOFS of the twiddle family (42_twiddle_rom.md): the root of each entry, the tables made of it, and the words, the
errors and the results of the commands that read the ROM. -/

namespace Sys2Proof

/-! ### The words of TWRF, TWRI and DINV (R95) -/

/-- The words with operation code 0x07: SEL tells the three commands apart. -/
theorem encodedAs_of_twiddle {i : Instr} {k idx sel : Nat} (hk : k < 16) (hidx : idx < 4096) (hsel : sel < 4)
    (hwf : i.wf = true) (h : encode i = packFields idx k sel 0 0 0 7) :
    i.encodedAs (0x7 + 0x4000 * sel + 0x10000 * k + 0x100000 * idx) :=
  encodedAs_of_encode hwf (h.trans (packFields_eq_ofNat hidx hk hsel 0 0 0 7))

theorem wf_cfg_idx {k idx : Nat} (hk : k < 16) (hidx : idx < 4096) : (fitsCfg k && fitsIdx idx) = true :=
  Bool.and_eq_true_iff.2 ⟨decide_eq_true hk, decide_eq_true hidx⟩

theorem sel_layout (idx : BitVec 12) (cfg : BitVec 4) (sel d sb sa : BitVec 2) (opc : BitVec 8) :
    (layout idx cfg sel d sb sa opc).extractLsb' 14 2 = sel := by
  unfold layout
  rw [BitVec.extractLsb'_append_eq_of_le (by decide), BitVec.extractLsb'_append_eq_of_le (by decide),
    BitVec.extractLsb'_append_eq_of_le (by decide), BitVec.extractLsb'_append_eq_of_le (by decide)]
  exact BitVec.extractLsb'_append_eq_right

/-- An encoding with operation code 0x07 has SEL below 3, and SEL = 2 only with IDX = 0. -/
theorem sel_idx_of_encode {i : Instr} (h : opcOf ((encode i).extractLsb' 0 32) = 7) :
    ((encode i).extractLsb' 0 32).extractLsb' 14 2 ≠ 3 ∧
      (((encode i).extractLsb' 0 32).extractLsb' 14 2 = 2 → idxOf ((encode i).extractLsb' 0 32) = 0) := by
  cases i with
  | nop | modmul | modred | modadd | modsub | bflyct | bflygs | nttf | ntti | pwmul =>
    rw [encode, packFields_low, opcOf_layout] at h
    exact absurd h (by decide)
  | twrf | twri | dinv =>
    rw [encode, packFields_low, sel_layout, idxOf_layout]
    simp

/-- With operation code 0x07, SEL = 3, or SEL = 2 with an index, is no command (R95, R156). -/
theorem decode_reserved_sel {c : Word} (hopc : c.extractLsb' 0 8 = 7)
    (hsel : c.extractLsb' 14 2 = 3 ∨ (c.extractLsb' 14 2 = 2 ∧ c.extractLsb' 20 12 ≠ 0)) :
    decode c = .error .reservedField := by
  rw [← opcOf_low] at hopc
  refine decode_of_not_encoding (hopc ▸ by decide) fun i hi => ?_
  subst hi
  obtain ⟨hne, hidx⟩ := sel_idx_of_encode hopc
  rw [BitVec.extractLsb'_extractLsb'_of_le (by decide)] at hne hidx
  rw [idxOf, BitVec.extractLsb'_extractLsb'_of_le (by decide)] at hidx
  obtain h3 | ⟨h2, h0⟩ := hsel
  · exact hne h3
  · exact h0 (BitVec.eq_of_toNat_eq (hidx h2))

namespace Machine

/-! ### The roots of unity (R150, R151) -/

theorem two_lt_entry_q {k : Nat} {e : Entry} (he : entry? k = some e) : 2 < e.q :=
  (entry_q_prime he).two_le.lt_of_ne' (entry_q_ne_two he)

theorem entry_dim_pos (e : Entry) : 0 < e.dim := Nat.two_pow_pos _

section
variable {k : Nat} {e : Entry} (he : entry? k = some e) (hr : e.nttOk = true)
include he hr

/-- The root and the inverse of the dimension, as the table has them. -/
theorem entry_root : e.psi ^ e.dim % e.q = e.q - 1 ∧ e.dinv * e.dim % e.q = 1 := by
  obtain ⟨-, rfl⟩ | ⟨-, rfl⟩ | ⟨-, rfl⟩ | ⟨-, rfl⟩ := entry_cases he
  · cases hr
  · decide +kernel
  · decide +kernel
  · decide +kernel

theorem psi_pow_dim : (e.psi : ZMod e.q) ^ e.dim = -1 := by
  have hmod : e.psi ^ e.dim % e.q = (e.q - 1) % e.q :=
    (entry_root he hr).1.trans (Nat.mod_eq_of_lt (Nat.pred_lt (entry_q_pos he).ne')).symm
  rw [← Nat.cast_pow, (ZMod.natCast_eq_natCast_iff' _ _ _).2 hmod, Nat.cast_pred (entry_q_pos he), ZMod.natCast_self,
    zero_sub]

theorem psi_pow_two_mul_dim : (e.psi : ZMod e.q) ^ (2 * e.dim) = 1 := by
  rw [Nat.mul_comm, pow_mul, psi_pow_dim he hr, neg_one_sq]

/-- `2*DIM_k` is a power of 2, and the power of `psi` to half of it is not 1. -/
theorem orderOf_psi : orderOf (e.psi : ZMod e.q) = 2 * e.dim := by
  have : Fact (2 < e.q) := ⟨two_lt_entry_q he⟩
  have hdim : 2 * e.dim = 2 ^ (e.log2dim + 1) := Nat.pow_succ'.symm
  rw [hdim]
  apply orderOf_eq_prime_pow
  · exact fun h => ZMod.neg_one_ne_one ((psi_pow_dim he hr).symm.trans h)
  · rw [← hdim, psi_pow_two_mul_dim he hr]

end

/-- Settles O32: the order from the power `DIM_k` of the root, which the table gives with the inverse of `DIM_k`. -/
theorem rootsArePrimitive : Obligations.RootsArePrimitive := by
  intro k e he hr
  obtain ⟨hpsi, hdinv⟩ := entry_root he hr
  exact ⟨hpsi, orderOf_psi he hr, entry_dinv_lt he, hdinv⟩

/-! ### The twiddle tables (R150, R157) -/

section
variable {k : Nat} {e : Entry} (he : entry? k = some e) (hr : e.nttOk = true)
include he hr

/-- `psiInv` is the inverse of `psi`, since it is the last power of `psi` before the order (R150). -/
theorem psiInv_mul_psi : (e.psiInv : ZMod e.q) * e.psi = 1 := by
  have hpos : 1 ≤ 2 * e.dim := Nat.mul_pos two_pos (entry_dim_pos e)
  rw [Entry.psiInv, ZMod.natCast_mod, Nat.cast_pow, ← pow_succ, Nat.sub_add_cancel hpos, psi_pow_two_mul_dim he hr]

/-- `ROMI_k[i]` is the inverse of the power `i` of `psi`. -/
theorem romi_mul_psi_pow (i : Nat) : e.romi i * e.psi ^ i % e.q = 1 := by
  have hcast : ((e.romi i * e.psi ^ i : Nat) : ZMod e.q) = (1 : Nat) := by
    rw [Nat.cast_mul, Entry.romi, ZMod.natCast_mod, Nat.cast_pow, Nat.cast_pow, ← mul_pow, psiInv_mul_psi he hr, one_pow,
      Nat.cast_one]
  rw [(ZMod.natCast_eq_natCast_iff' _ _ _).1 hcast, Nat.mod_eq_of_lt (entry_q_prime he).one_lt]

theorem romf_mul_romi (i : Nat) : e.romf i * e.romi i % e.q = 1 := by
  rw [Entry.romf, Nat.mod_mul_mod, Nat.mul_comm, romi_mul_psi_pow he hr]

theorem romf_last_mul_psi : e.romf (e.dim - 1) * e.psi % e.q = e.q - 1 := by
  rw [Entry.romf, Nat.mod_mul_mod, ← pow_succ, Nat.sub_add_cancel (entry_dim_pos e), (entry_root he hr).1]

end

theorem romf_mul_romf (e : Entry) (i j : Nat) : e.romf i * e.romf j % e.q = e.romf (i + j) := by
  rw [Entry.romf, Entry.romf, Entry.romf, pow_add, ← Nat.mul_mod]

theorem romi_lt {k : Nat} {e : Entry} (he : entry? k = some e) (i : Nat) : e.romi i < e.q :=
  Nat.mod_lt _ (entry_q_pos he)

/-- Settles O33: each relation is one of powers of `psi`. -/
theorem twiddleTablesAreRelated : Obligations.TwiddleTablesAreRelated := fun _ e he hr =>
  ⟨fun i _ => romf_mul_romi he hr i, fun i j _ _ _ => romf_mul_romf e i j, romf_last_mul_psi he hr⟩

/-! ### Precheck of the commands that read the ROM (R96, R153) -/

section
variable {k idx : Nat} {e : Entry} (he : entry? k = some e)
include he

theorem precheck_noRoot (hr : e.nttOk = false) (idx? : Option Nat) : precheck true idx? k = .error .noRoot := by
  simp [precheck, he, hr]

theorem precheck_idxRange (hr : e.nttOk = true) (hidx : e.dim ≤ idx) :
    precheck true (some idx) k = .error .idxRange := by
  simp [precheck, he, hr, hidx]

theorem precheck_rootIdx (hr : e.nttOk = true) (hidx : idx < e.dim) : precheck true (some idx) k = .ok e := by
  simp [precheck, he, hr, hidx]

/-- An entry without a root is NO_ROOT, whatever the index and the banks. -/
theorem exec_noRoot {i : Instr} (hi : i.needsRoot = true) (hk : i.cfg? = some k) (hr : e.nttOk = false) (s : State) :
    exec i s = .next (s.afterError .noRoot) :=
  exec_of_precheck_error hk (hi ▸ precheck_noRoot he hr i.idx?)

end

/-- Settles O20: entry 0 has no root. -/
theorem entryWithoutRootIsNoRoot : Obligations.EntryWithoutRootIsNoRoot := fun _ s hi hk =>
  exec_noRoot (e := entry0) rfl hi hk rfl s

/-! ### TWRF, TWRI and DINV (R154 to R156) -/

/-- Settles O28: Precheck decides the error, and past it the table gives the power of the root. -/
theorem twrfGivesRootPower : Obligations.TwrfGivesRootPower := by
  intro k idx s
  refine ⟨fun hk hidx => encodedAs_of_twiddle hk hidx (sel := 0) (by decide) (wf_cfg_idx hk hidx) rfl,
    absentEntryIsBadCfg (.twrf k idx) k s rfl, fun e he => ⟨fun hr => exec_noRoot he rfl rfl hr s,
    fun hr hidx => exec_of_precheck_error rfl (precheck_idxRange he hr hidx), fun hr hidx => ?_⟩⟩
  rw [exec, execTwrf, bind_of_ok (precheck_rootIdx he hr hidx)]
  rfl

/-- Settles O29: as TWRF, with the table of the inverse powers. -/
theorem twriGivesInverseRootPower : Obligations.TwriGivesInverseRootPower := by
  intro k idx s
  refine ⟨fun hk hidx => encodedAs_of_twiddle hk hidx (sel := 1) (by decide) (wf_cfg_idx hk hidx) rfl,
    absentEntryIsBadCfg (.twri k idx) k s rfl, fun e he => ⟨fun hr => exec_noRoot he rfl rfl hr s,
    fun hr hidx => exec_of_precheck_error rfl (precheck_idxRange he hr hidx), fun hr hidx => ?_⟩⟩
  refine ⟨zext64 (e.romi idx), zext64_lt he (romi_lt he idx), ?_, ?_⟩
  · rw [zext64_toNat ((romi_lt he idx).trans (entry_q_lt he)), romi_mul_psi_pow he hr]
  · rw [exec, execTwri, bind_of_ok (precheck_rootIdx he hr hidx)]
    rfl

/-- Settles O30: Precheck without an index, and past it the inverse of the dimension. -/
theorem dinvGivesInverseDimension : Obligations.DinvGivesInverseDimension := by
  intro k s
  refine ⟨fun hk => encodedAs_of_twiddle hk (idx := 0) (by decide) (sel := 2) (by decide) (decide_eq_true hk) rfl,
    fun _ => decode_reserved_sel, absentEntryIsBadCfg (.dinv k) k s rfl,
    fun e he => ⟨fun hr => exec_noRoot he rfl rfl hr s, fun hr => ?_⟩⟩
  refine ⟨zext64 e.dinv, zext64_lt he (entry_dinv_lt he), ?_, ?_⟩
  · rw [zext64_toNat ((entry_dinv_lt he).trans (entry_q_lt he)), (entry_root he hr).2]
  · rw [exec, execDinv, bind_of_ok (precheck_root he hr)]
    rfl

end Machine

end Sys2Proof
end

section
/-! PROOFS of the butterfly family (43_butterfly.md): the words, the results, the errors and the frame of BFLYCT and
BFLYGS, and how the one undoes the other. -/

namespace Sys2Proof

/-! ### The arithmetic of the datapath in `ZMod Q_k` (R16, R18) -/

@[simp] theorem natCast_reduce (e : Entry) (p : Nat) : (e.reduce p : ZMod e.q) = p := ZMod.natCast_mod p e.q

@[simp] theorem natCast_addMod (e : Entry) (u v : Nat) : (e.addMod u v : ZMod e.q) = u + v := by
  rw [Entry.addMod, ZMod.natCast_mod, Nat.cast_add]

theorem natCast_subMod {e : Entry} (hq : 0 < e.q) (u v : Nat) : (e.subMod u v : ZMod e.q) = u - v := by
  rw [Entry.subMod, ← Int.cast_natCast, Int.toNat_of_nonneg (Int.emod_nonneg _ (by omega)), ZMod.intCast_mod,
    Int.cast_sub, Int.cast_natCast, Int.cast_natCast]

/-- A canonical value is the residue of every number it is congruent to. -/
theorem eq_mod_of_natCast_eq {e : Entry} {x n : Nat} (hx : x < e.q) (h : (x : ZMod e.q) = n) : x = n % e.q := by
  rw [← (ZMod.natCast_eq_natCast_iff' x n e.q).1 h, Nat.mod_eq_of_lt hx]

/-- A canonical value is the floored residue of every integer it is congruent to (R9). -/
theorem eq_emod_of_natCast_eq {e : Entry} {x : Nat} {z : Int} (hx : x < e.q) (h : (x : ZMod e.q) = z) :
    (x : Int) = z % (e.q : Int) := by
  rw [← (ZMod.intCast_eq_intCast_iff' x z e.q).1 ((Int.cast_natCast x).trans h),
    Int.emod_eq_of_lt (Int.natCast_nonneg x) (Int.ofNat_lt.2 hx)]

namespace Machine

/-! ### The results of a butterfly (R170, R171) -/

/-- RES0 of BFLYCT (R170). -/
def ctSum (e : Entry) (u v t : Nat) : Nat := e.addMod u (e.reduce (t * v))

/-- RES1 of BFLYCT (R170). -/
def ctDiff (e : Entry) (u v t : Nat) : Nat := e.subMod u (e.reduce (t * v))

/-- RES0 of BFLYGS (R171). -/
def gsSum (e : Entry) (u v _t : Nat) : Nat := e.addMod u v

/-- RES1 of BFLYGS (R171). -/
def gsDiff (e : Entry) (u v t : Nat) : Nat := e.reduce (e.subMod u v * t)

theorem natCast_ctSum (e : Entry) (u v t : Nat) : (ctSum e u v t : ZMod e.q) = u + t * v := by simp [ctSum]

theorem natCast_gsSum (e : Entry) (u v t : Nat) : (gsSum e u v t : ZMod e.q) = u + v := natCast_addMod e u v

section
variable {e : Entry} (hq : 0 < e.q) (u v t : Nat)
include hq

theorem natCast_ctDiff : (ctDiff e u v t : ZMod e.q) = u - t * v := by simp [ctDiff, natCast_subMod hq]

theorem natCast_gsDiff : (gsDiff e u v t : ZMod e.q) = (u - v) * t := by simp [gsDiff, natCast_subMod hq]

theorem ctSum_lt : ctSum e u v t < e.q := addMod_lt e hq _ _

theorem ctDiff_lt : ctDiff e u v t < e.q := subMod_lt e hq _ _

theorem gsSum_lt : gsSum e u v t < e.q := addMod_lt e hq _ _

theorem gsDiff_lt : gsDiff e u v t < e.q := reduce_lt e hq _

/-! On the elements that operands denote, each result is the residue of the exact value of the operands. -/

theorem ctSum_mod : ctSum e (u % e.q) (v % e.q) (t % e.q) = (u + t * v) % e.q :=
  eq_mod_of_natCast_eq (ctSum_lt hq _ _ _) (by simp [natCast_ctSum])

theorem ctDiff_mod : (ctDiff e (u % e.q) (v % e.q) (t % e.q) : Int) = ((u : Int) - t * v) % (e.q : Int) :=
  eq_emod_of_natCast_eq (ctDiff_lt hq _ _ _) (by simp [natCast_ctDiff hq])

theorem gsSum_mod : gsSum e (u % e.q) (v % e.q) (t % e.q) = (u + v) % e.q :=
  eq_mod_of_natCast_eq (gsSum_lt hq _ _ _) (by simp [natCast_gsSum])

theorem gsDiff_mod : (gsDiff e (u % e.q) (v % e.q) (t % e.q) : Int) = (((u : Int) - v) * t) % (e.q : Int) :=
  eq_emod_of_natCast_eq (gsDiff_lt hq _ _ _) (by simp [natCast_gsDiff hq])

end

/-! ### The commands on OPA, OPB and OPT -/

/-- The body BFLYCT and BFLYGS share: Precheck, canon_k of OPA, OPB and OPT, and both results from their values. -/
def onOpaOpbOpt (f g : Entry → Nat → Nat → Nat → Nat) (k : Nat) (s : State) : Except ErrCode State := do
  let e ← precheck false none k
  let u ← e.canon s.opa
  let v ← e.canon s.opb
  let t ← e.canon s.opt
  return s.setRes (f e u v t) (g e u v t)

theorem exec_bflyct (k : Nat) (s : State) :
    exec (.bflyct k) s = completeScalar s (onOpaOpbOpt ctSum ctDiff k s) := rfl

theorem exec_bflygs (k : Nat) (s : State) :
    exec (.bflygs k) s = completeScalar s (onOpaOpbOpt gsSum gsDiff k s) := rfl

section
variable {k : Nat} {e : Entry} (he : entry? k = some e) {s : State}
include he

/-- A check of canon_k ends in OPERAND_RANGE where the operand is out of range, or where what runs past it does. -/
theorem completeScalar_canon_bind_error {x : Word} {c : Nat → Except ErrCode State}
    (h : e.inRange x = false ∨ ∀ a, completeScalar s (c a) = .next (s.afterError .operandRange)) :
    completeScalar s (e.canon x >>= c) = .next (s.afterError .operandRange) := by
  cases hx : e.inRange x with
  | false => exact completeScalar_bind_error (canon_error hx)
  | true =>
    rw [bind_of_ok (canon_ok he hx)]
    exact h.resolve_left (by simp [hx]) _

variable (f g : Entry → Nat → Nat → Nat → Nat)

/-- With the three operands in range the results are of the elements they denote. -/
theorem completeScalar_onOpaOpbOpt_of_inRange
    (h : e.inRange s.opa = true ∧ e.inRange s.opb = true ∧ e.inRange s.opt = true) :
    completeScalar s (onOpaOpbOpt f g k s) =
      .next (State.completed
        { s with
          res0 := zext64 (f e (s.opa.toNat % e.q) (s.opb.toNat % e.q) (s.opt.toNat % e.q))
          res1 := zext64 (g e (s.opa.toNat % e.q) (s.opb.toNat % e.q) (s.opt.toNat % e.q)) }) := by
  obtain ⟨hu, hv, ht⟩ := h
  rw [onOpaOpbOpt, bind_of_ok (precheck_plain he), bind_of_ok (canon_ok he hu), bind_of_ok (canon_ok he hv),
    bind_of_ok (canon_ok he ht)]
  rfl

/-- An operand out of range is OPERAND_RANGE (R11), whichever of the three it is. -/
theorem completeScalar_onOpaOpbOpt_of_outOfRange
    (h : e.inRange s.opa = false ∨ e.inRange s.opb = false ∨ e.inRange s.opt = false) :
    completeScalar s (onOpaOpbOpt f g k s) = .next (s.afterError .operandRange) := by
  rw [onOpaOpbOpt, bind_of_ok (precheck_plain he)]
  exact completeScalar_canon_bind_error he <| h.imp_right fun h _ =>
    completeScalar_canon_bind_error he <| h.imp_right fun h _ => completeScalar_bind_error (canon_error h)

end

/-- Settles O26: the body shared with BFLYGS, with `u + t*v` and `u - t*v` of the elements. -/
theorem bflyctGivesButterfly : Obligations.BflyctGivesButterfly := by
  intro k s
  refine ⟨fun hk => encodedAs_of_cfg 5 hk rfl rfl, absentEntryIsBadCfg (.bflyct k) k s rfl, fun e he => ?_⟩
  have hq := entry_q_pos he
  rw [exec_bflyct]
  refine ⟨fun h => ?_, completeScalar_onOpaOpbOpt_of_outOfRange he _ _⟩
  rw [completeScalar_onOpaOpbOpt_of_inRange he _ _ h, ctSum_mod hq, ← ctDiff_mod hq, BitVec.ofInt_natCast]
  rfl

/-- Settles O27: the body shared with BFLYCT, with `u + v` and `(u - v)*t` of the elements. -/
theorem bflygsGivesButterfly : Obligations.BflygsGivesButterfly := by
  intro k s
  refine ⟨fun hk => encodedAs_of_cfg 6 hk rfl rfl, absentEntryIsBadCfg (.bflygs k) k s rfl, fun e he => ?_⟩
  have hq := entry_q_pos he
  rw [exec_bflygs]
  refine ⟨fun h => ?_, completeScalar_onOpaOpbOpt_of_outOfRange he _ _⟩
  rw [completeScalar_onOpaOpbOpt_of_inRange he _ _ h, gsSum_mod hq, ← gsDiff_mod hq, BitVec.ofInt_natCast]
  rfl

/-! ### BFLYGS after BFLYCT (R172) -/

section
variable {k : Nat} {e : Entry} (he : entry? k = some e)
include he

/-- A canonical operand is in range, lazy entry or not (R11). -/
theorem inRange_of_lt {x : Word} (hx : x.toNat < e.q) : e.inRange x = true := by
  have hew := hx.trans (entry_q_lt_two_pow_ew he)
  rw [Entry.inRange, decide_eq_true_eq]
  split
  · exact hew
  · exact hx

/-- A canonical result moved to an operand register denotes itself. -/
theorem zext64_toNat_mod {x : Nat} (hx : x < e.q) : (zext64 x).toNat % e.q = x := by
  rw [zext64_toNat (hx.trans (entry_q_lt he)), Nat.mod_eq_of_lt hx]

/-- A canonical result is the residue of every number it is congruent to. -/
theorem zext64_toNat_eq_mod {x n : Nat} (hx : x < e.q) (h : (x : ZMod e.q) = n) : (zext64 x).toNat = n % e.q := by
  rw [zext64_toNat (hx.trans (entry_q_lt he)), eq_mod_of_natCast_eq hx h]

end

section
variable {e : Entry} (hq : 0 < e.q) (u v t : Nat)
include hq

/-- The products cancel in the sum: `(u + t*v) + (u - t*v) = 2u`. -/
theorem natCast_gsSum_ct (t' : Nat) :
    (gsSum e (ctSum e u v t) (ctDiff e u v t) t' : ZMod e.q) = (2 * u : Nat) := by
  rw [natCast_gsSum, natCast_ctSum, natCast_ctDiff hq, Nat.cast_mul, Nat.cast_two]
  ring

/-- The difference is `2*t*v`, from which the inverse twiddle takes `t` away. -/
theorem natCast_gsDiff_ct {t' : Nat} (h : (t * t' : ZMod e.q) = 1) :
    (gsDiff e (ctSum e u v t) (ctDiff e u v t) t' : ZMod e.q) = (2 * v : Nat) := by
  rw [natCast_gsDiff hq, natCast_ctSum, natCast_ctDiff hq, Nat.cast_mul, Nat.cast_two]
  linear_combination (2 * v : ZMod e.q) * h

end

/-- Settles O34: both commands have canonical operands, and in `ZMod Q_k` the results are `2u` and `2v`. -/
theorem gsButterflyInvertsCtUpToTwo : Obligations.GsButterflyInvertsCtUpToTwo := by
  intro k e s t' he hu hv ht ht' hinv
  have hq := entry_q_pos he
  have htt' : (s.opt.toNat * t'.toNat : ZMod e.q) = 1 := by
    rw [← Nat.cast_mul, ← ZMod.natCast_mod, hinv, Nat.cast_one]
  have hct := completeScalar_onOpaOpbOpt_of_inRange he ctSum ctDiff
    ⟨inRange_of_lt he hu, inRange_of_lt he hv, inRange_of_lt he ht⟩
  rw [Nat.mod_eq_of_lt hu, Nat.mod_eq_of_lt hv, Nat.mod_eq_of_lt ht] at hct
  have hsum := ctSum_lt hq s.opa.toNat s.opb.toNat s.opt.toNat
  have hdiff := ctDiff_lt hq s.opa.toNat s.opb.toNat s.opt.toNat
  refine ⟨_, _, hct, completeScalar_onOpaOpbOpt_of_inRange he gsSum gsDiff
    ⟨inRange_of_lt he (zext64_lt he hsum), inRange_of_lt he (zext64_lt he hdiff), inRange_of_lt he ht'⟩, ?_, ?_⟩
  · apply zext64_toNat_eq_mod he (gsSum_lt hq _ _ _)
    rw [State.completed, zext64_toNat_mod he hsum, zext64_toNat_mod he hdiff, natCast_gsSum_ct hq]
  · apply zext64_toNat_eq_mod he (gsDiff_lt hq _ _ _)
    rw [State.completed, zext64_toNat_mod he hsum, zext64_toNat_mod he hdiff, Nat.mod_eq_of_lt ht',
      natCast_gsDiff_ct hq _ _ _ htt']

end Machine

end Sys2Proof
end

section
/-! PROOFS of the transform family (44_ntt.md), the loops: bit reversal, and a stage as butterflies on disjoint
pairs. -/

namespace Sys2Proof

/-! ### Bit reversal (R9) -/

/-- Bit reversal has `l` bits. -/
theorem brv_lt (l x : Nat) : brv l x < 2 ^ l := by
  induction l generalizing x with
  | zero => exact Nat.one_pos
  | succ l ih =>
    have hl := ih (x / 2)
    have hbit := Nat.mod_two_eq_zero_or_one x
    rw [brv, pow_succ]
    obtain hbit | hbit := hbit <;> rw [hbit] <;> omega

theorem brv_zero (l : Nat) : brv l 0 = 0 := by
  induction l with
  | zero => rfl
  | succ l ih => rw [brv, Nat.zero_mod, Nat.zero_mul, Nat.zero_add, Nat.zero_div, ih]

/-- The low `s` bits reversed come on top of the others reversed. -/
theorem brv_add (s l x : Nat) : brv (s + l) x = brv s (x % 2 ^ s) * 2 ^ l + brv l (x / 2 ^ s) := by
  induction s generalizing x with
  | zero => rw [Nat.zero_add, pow_zero, brv, Nat.div_one, Nat.zero_mul, Nat.zero_add]
  | succ s ih =>
    have hlow : x % 2 ^ (s + 1) % 2 = x % 2 := Nat.mod_mod_of_dvd x (dvd_pow_self 2 s.succ_ne_zero)
    have hhigh : x % 2 ^ (s + 1) / 2 = x / 2 % 2 ^ s := by rw [pow_succ', Nat.mod_mul_right_div_self]
    have hdiv : x / 2 / 2 ^ s = x / 2 ^ (s + 1) := by rw [Nat.div_div_eq_div_mul, ← pow_succ']
    rw [Nat.add_right_comm, brv, ih, brv, hlow, hhigh, hdiv, pow_add]
    ring

/-- Bit reversal is injective below `2^l`. -/
theorem brv_injOn (l : Nat) {x y : Nat} (hx : x < 2 ^ l) (hy : y < 2 ^ l) (h : brv l x = brv l y) : x = y := by
  induction l generalizing x y with
  | zero => exact (Nat.lt_one_iff.1 hx).trans (Nat.lt_one_iff.1 hy).symm
  | succ l ih =>
    rw [pow_succ] at hx hy
    have hxl := brv_lt l (x / 2)
    have hyl := brv_lt l (y / 2)
    rw [brv, brv] at h
    have hbits : x % 2 = y % 2 ∧ brv l (x / 2) = brv l (y / 2) := by
      obtain hbx | hbx := Nat.mod_two_eq_zero_or_one x <;> obtain hby | hby := Nat.mod_two_eq_zero_or_one y <;>
        rw [hbx, hby] at h ⊢ <;> omega
    have := ih (by omega) (by omega) hbits.2
    omega

/-- Index `2^l + i` of the twiddle tables, reversed: the schedule of R190 and R192. -/
theorem brv_twiddle (s : Nat) {l i : Nat} (hi : i < 2 ^ l) :
    brv (s + (l + 1)) (2 ^ l + i) = (2 * brv l i + 1) * 2 ^ s := by
  have hdiv : (2 ^ l + i) / 2 ^ l = 1 := by
    rw [Nat.add_div_left _ (Nat.two_pow_pos l), Nat.div_eq_of_lt hi]
  rw [(by omega : s + (l + 1) = l + (s + 1)), brv_add, Nat.add_mod_left, Nat.mod_eq_of_lt hi, hdiv, brv, Nat.one_mod,
    Nat.div_eq_of_lt one_lt_two, brv_zero, pow_succ]
  ring

namespace Machine

/-! ### A stage as butterflies on disjoint pairs (R194) -/

/-- The body of either inner loop: `a[j]` and `a[j + t]` take the results of `f` on their values (R190, R192). -/
def pairStep (t : Nat) (f : Nat → Nat → Nat × Nat) (a : List Nat) (j : Nat) : List Nat :=
  (a.set j (f (nth a j) (nth a (j + t))).1).set (j + t) (f (nth a j) (nth a (j + t))).2

/-- Group `i` of a stage, with the butterfly `f i`. -/
def pairGroup (t : Nat) (f : Nat → Nat → Nat → Nat × Nat) (a : List Nat) (i : Nat) : List Nat :=
  (List.range t).foldl (fun a r => pairStep t (f i) a (2 * i * t + r)) a

/-- The CT butterfly of group `i` of `m` (R190). -/
def ctPair (e : Entry) (m i U x : Nat) : Nat × Nat :=
  let V := e.reduce (x * e.romf (brv e.log2dim (m + i)))
  (e.addMod U V, e.subMod U V)

/-- The GS butterfly of group `i` of `h` (R192). -/
def gsPair (e : Entry) (h i U V : Nat) : Nat × Nat :=
  (e.addMod U V, e.reduce (e.subMod U V * e.romi (brv e.log2dim (h + i))))

/-- The vector has `n` elements, and `p` are elements `j` and `j + t`. -/
def HasPair (n t j : Nat) (p : Nat × Nat) (a : List Nat) : Prop := a.length = n ∧ nth a j = p.1 ∧ nth a (j + t) = p.2

/-- A loop that changes what holds in one pass, and keeps it in all the others. -/
theorem foldl_range_once {β : Type} (P Q : β → Prop) (f : β → Nat → β) {n k : Nat} (hk : k < n)
    (hP : ∀ b, ∀ i < n, i ≠ k → P b → P (f b i)) (hQ : ∀ b, ∀ i < n, i ≠ k → Q b → Q (f b i))
    (hPQ : ∀ b, P b → Q (f b k)) {a : β} (ha : P a) : Q ((List.range n).foldl f a) := by
  induction n with
  | zero => omega
  | succ n ih =>
    rw [List.range_succ, List.foldl_concat]
    obtain hlt | rfl := Nat.lt_succ_iff_lt_or_eq.1 hk
    · exact hQ _ n (by omega) (by omega)
        (ih hlt (fun b i hi => hP b i (by omega)) (fun b i hi => hQ b i (by omega)))
    · refine hPQ _ (List.foldlRecOn _ _ ha fun b hb i hi => ?_)
      have hi := List.mem_range.1 hi
      exact hP b i (by omega) (by omega) hb

theorem nth_set_ne (a : List Nat) {i j : Nat} (v : Nat) (h : j ≠ i) : nth (a.set i v) j = nth a j := by
  rw [nth, nth, List.getD_eq_getElem?_getD, List.getD_eq_getElem?_getD, List.getElem?_set_ne h.symm]

section
variable {n t j : Nat} {p : Nat × Nat} {a : List Nat} (h : HasPair n t j p a)
include h

/-- A butterfly on the pair itself. -/
theorem hasPair_pairStep_self (f : Nat → Nat → Nat × Nat) (ht : 0 < t) (hj : j + t < n) :
    HasPair n t j (f p.1 p.2) (pairStep t f a j) := by
  obtain ⟨hlen, hfst, hsnd⟩ := h
  rw [pairStep, hfst, hsnd]
  refine ⟨by simpa using hlen, ?_, ?_⟩
  · rw [nth_set_ne _ _ (by omega), nth_set _ _ _ _ (by omega), if_pos rfl]
  · rw [nth_set _ _ _ _ (by simp; omega), if_pos rfl]

/-- A butterfly on a disjoint pair. -/
theorem hasPair_pairStep_other (f : Nat → Nat → Nat × Nat) {j' : Nat} (hne : j ≠ j') (hlo : j ≠ j' + t)
    (hhi : j + t ≠ j') : HasPair n t j p (pairStep t f a j') := by
  obtain ⟨hlen, hfst, hsnd⟩ := h
  refine ⟨by simpa [pairStep] using hlen, ?_, ?_⟩
  · rw [pairStep, nth_set_ne _ _ hlo, nth_set_ne _ _ hne, hfst]
  · rw [pairStep, nth_set_ne _ _ (by omega), nth_set_ne _ _ hhi, hsnd]

end

/-- A group ends where the next one begins. -/
theorem group_end_le {i i' : Nat} (t : Nat) (h : i < i') : 2 * i * t + 2 * t ≤ 2 * i' * t := by
  rw [← Nat.add_mul]
  exact Nat.mul_le_mul_right t (by omega)

/-- Each pair of a stage becomes the result of its group's butterfly on its old values. -/
theorem hasPair_stage {n m t i r : Nat} {a : List Nat} (f : Nat → Nat → Nat → Nat × Nat) {p : Nat × Nat}
    (hn : 2 * m * t ≤ n) (hi : i < m) (hr : r < t) (h : HasPair n t (2 * i * t + r) p a) :
    HasPair n t (2 * i * t + r) (f i p.1 p.2) ((List.range m).foldl (pairGroup t f) a) := by
  have other : ∀ q b, ∀ i' < m, i' ≠ i → HasPair n t (2 * i * t + r) q b →
      HasPair n t (2 * i * t + r) q (pairGroup t f b i') := by
    intro q b i' _ hne hb
    refine List.foldlRecOn _ _ hb fun c hc r' hr' => ?_
    have hr' := List.mem_range.1 hr'
    have hsep : 2 * i' * t + 2 * t ≤ 2 * i * t ∨ 2 * i * t + 2 * t ≤ 2 * i' * t :=
      hne.lt_or_gt.imp (group_end_le t) (group_end_le t)
    apply hasPair_pairStep_other hc <;> omega
  refine foldl_range_once _ _ _ hi (other p) (other _) (fun b hb => ?_) h
  refine foldl_range_once _ _ _ hr (fun c r' hr' hne hc => ?_) (fun c r' hr' hne hc => ?_) (fun c hc => ?_) hb
  · apply hasPair_pairStep_other hc <;> omega
  · apply hasPair_pairStep_other hc <;> omega
  · have hend := group_end_le t hi
    exact hasPair_pairStep_self hc (f i) (by omega) (by omega)

/-- A stage gives each pair the results of its group's butterfly on the old values. -/
theorem nth_stage {t m i r : Nat} {a : List Nat} (f : Nat → Nat → Nat → Nat × Nat) (hlen : a.length = 2 * m * t)
    (hi : i < m) (hr : r < t) :
    (nth ((List.range m).foldl (pairGroup t f) a) (2 * i * t + r),
      nth ((List.range m).foldl (pairGroup t f) a) (2 * i * t + r + t)) =
      f i (nth a (2 * i * t + r)) (nth a (2 * i * t + r + t)) := by
  obtain ⟨-, hfst, hsnd⟩ := hasPair_stage f (p := (_, _)) hlen.ge hi hr ⟨rfl, rfl, rfl⟩
  exact Prod.ext hfst hsnd

theorem nth_ctStage (e : Entry) {t m i r : Nat} {a : List Nat} (hlen : a.length = 2 * m * t) (hi : i < m)
    (hr : r < t) :
    (nth (ctStage e m t a) (2 * i * t + r), nth (ctStage e m t a) (2 * i * t + r + t)) =
      ctPair e m i (nth a (2 * i * t + r)) (nth a (2 * i * t + r + t)) :=
  nth_stage (ctPair e m) hlen hi hr

theorem nth_gsStage (e : Entry) {t h i r : Nat} {a : List Nat} (hlen : a.length = 2 * h * t) (hi : i < h)
    (hr : r < t) :
    (nth (gsStage e h t a) (2 * i * t + r), nth (gsStage e h t a) (2 * i * t + r + t)) =
      gsPair e h i (nth a (2 * i * t + r)) (nth a (2 * i * t + r + t)) :=
  nth_stage (gsPair e h) hlen hi hr

end Machine

end Sys2Proof
end

section
/-! PROOFS of the transform family (44_ntt.md), the mathematics. A stage of either loop sees its vector as blocks, each
the coefficients of a polynomial. A CT stage keeps the value of every block at the designated roots of its indices, a
GS stage doubles it; so the loops evaluate and interpolate. -/

namespace Sys2Proof.Machine

section
variable {e : Entry} {s l : Nat} (hL : e.log2dim = s + (l + 1))
include hL

/-- The stage with `2^l` groups of `2^s` pairs covers the vector. -/
theorem dim_eq_of_stage : e.dim = 2 * 2 ^ l * 2 ^ s := by
  rw [Entry.dim, hL]
  ring

theorem group_lt {x : Nat} (hx : x < e.dim) : x / 2 ^ s / 2 < 2 ^ l := by
  rw [dim_eq_of_stage hL, Nat.mul_comm] at hx
  exact Nat.div_lt_of_lt_mul (Nat.div_lt_of_lt_mul hx)

end

/-! ### The designated roots (R191) -/

/-- The `k`-th designated root, `psi^(2*brv_L(k) + 1)`. -/
def designatedRoot (e : Entry) (k : Nat) : ZMod e.q := (e.psi : ZMod e.q) ^ (2 * brv e.log2dim k + 1)

/-- The value of the polynomial `p` at the `k`-th designated root. -/
def valueAt (e : Entry) (p : Nat → Nat) (k : Nat) : ZMod e.q :=
  ∑ j ∈ Finset.range e.dim, (p j : ZMod e.q) * designatedRoot e k ^ j

theorem natCast_evalAt (e : Entry) (p : Nat → Nat) (k : Nat) : (evalAt e p k : ZMod e.q) = valueAt e p k := by
  rw [evalAt, ZMod.natCast_mod, Nat.cast_sum]
  simp only [evalTerm, Nat.cast_mul, Nat.cast_pow, pow_mul]
  rfl

theorem natCast_romf (e : Entry) (i : Nat) : (e.romf i : ZMod e.q) = (e.psi : ZMod e.q) ^ i := by
  rw [Entry.romf, ZMod.natCast_mod, Nat.cast_pow]

section
variable {k : Nat} {e : Entry} (he : entry? k = some e) (hr : e.nttOk = true)
include he hr

theorem psi_pow_mul_natCast_romi (i : Nat) : (e.psi : ZMod e.q) ^ i * (e.romi i : ZMod e.q) = 1 := by
  rw [Entry.romi, ZMod.natCast_mod, Nat.cast_pow, ← mul_pow, mul_comm, psiInv_mul_psi he hr, one_pow]

/-- Every designated root is one of `x^n + 1`. -/
theorem designatedRoot_pow_dim (x : Nat) : designatedRoot e x ^ e.dim = -1 := by
  rw [designatedRoot, pow_right_comm, psi_pow_dim he hr]
  exact Odd.neg_one_pow ⟨_, rfl⟩

/-- `psi` has order `2*DIM_k`, and bit reversal is injective. -/
theorem designatedRoot_injOn {x y : Nat} (hx : x < e.dim) (hy : y < e.dim)
    (h : designatedRoot e x = designatedRoot e y) : x = y := by
  have hbx : brv e.log2dim x < e.dim := brv_lt e.log2dim x
  have hby : brv e.log2dim y < e.dim := brv_lt e.log2dim y
  have hexp : 2 * brv e.log2dim x + 1 = 2 * brv e.log2dim y + 1 := by
    apply pow_injOn_Iio_orderOf _ _ h <;> rw [Set.mem_Iio, orderOf_psi he hr] <;> omega
  exact brv_injOn _ hx hy (by omega)

/-- In a stage of `m = 2^l` groups, the power `t = 2^s` of the root of `x` is the twiddle of the group of `x`, with the
sign of the half of the group that holds `x`. -/
theorem designatedRoot_pow {s l x : Nat} (hL : e.log2dim = s + (l + 1)) (hx : x < e.dim) :
    designatedRoot e x ^ 2 ^ s =
      (-1) ^ (x / 2 ^ s % 2) * (e.psi : ZMod e.q) ^ brv e.log2dim (2 ^ l + x / 2 ^ s / 2) := by
  have hexp : (2 * brv e.log2dim x + 1) * 2 ^ s = 2 * e.dim * brv s (x % 2 ^ s) + e.dim * (x / 2 ^ s % 2) +
      brv e.log2dim (2 ^ l + x / 2 ^ s / 2) := by
    rw [dim_eq_of_stage hL, hL, brv_twiddle s (group_lt hL hx), brv_add, brv, pow_succ]
    ring
  rw [designatedRoot, ← pow_mul, hexp, pow_add, pow_add, pow_mul, pow_mul _ e.dim, psi_pow_two_mul_dim he hr, one_pow,
    one_mul, psi_pow_dim he hr]

end

/-! ### What a stage does to the values at the roots -/

/-- The block of `t` elements around index `x`, as a polynomial, at the designated root of `x`. -/
def blockValue (e : Entry) (a : List Nat) (t x : Nat) : ZMod e.q :=
  ∑ r ∈ Finset.range t, (nth a (x / t * t + r) : ZMod e.q) * designatedRoot e x ^ r

theorem blockValue_one (e : Entry) (a : List Nat) (x : Nat) : blockValue e a 1 x = nth a x := by
  simp [blockValue]

theorem blockValue_dim (a : List Nat) {e : Entry} {x : Nat} (hx : x < e.dim) :
    blockValue e a e.dim x = valueAt e (nth a) x := by
  simp [blockValue, valueAt, Nat.div_eq_of_lt hx]

/-- A block of `2*t` as its two halves. -/
theorem blockValue_two_mul (e : Entry) (a : List Nat) (t x : Nat) :
    blockValue e a (2 * t) x = ∑ r ∈ Finset.range t,
      ((nth a (2 * (x / t / 2) * t + r) : ZMod e.q) +
        nth a (2 * (x / t / 2) * t + r + t) * designatedRoot e x ^ t) * designatedRoot e x ^ r := by
  have hbase : x / (2 * t) * (2 * t) = 2 * (x / t / 2) * t := by
    rw [Nat.div_div_eq_div_mul, Nat.mul_comm t 2]
    ring
  rw [blockValue, hbase, Nat.two_mul t, Finset.sum_range_add, ← Finset.sum_add_distrib]
  refine Finset.sum_congr rfl fun r _ => ?_
  rw [Nat.add_comm t r, ← Nat.add_assoc, pow_add]
  ring

/-- A block of `t` is the first or the second half of a block of `2*t`. -/
theorem half_cases (t x : Nat) :
    (x / t % 2 = 0 ∧ ∀ r, x / t * t + r = 2 * (x / t / 2) * t + r) ∨
      (x / t % 2 = 1 ∧ ∀ r, x / t * t + r = 2 * (x / t / 2) * t + r + t) := by
  have hbit := Nat.div_add_mod (x / t) 2
  obtain h | h := Nat.mod_two_eq_zero_or_one (x / t) <;> rw [h] at hbit
  · exact .inl ⟨h, fun r => by rw [← Nat.add_zero (2 * (x / t / 2)), hbit]⟩
  · refine .inr ⟨h, fun r => ?_⟩
    conv_lhs => rw [← hbit]
    ring

section
variable {s l x : Nat} {e : Entry} (hL : e.log2dim = s + (l + 1)) (hx : x < e.dim) {k : Nat}
  (he : entry? k = some e) (hr : e.nttOk = true) {a : List Nat} (hlen : a.length = e.dim)
include hL hx he hr hlen

/-- A CT stage reduces the polynomial of each block modulo the two factors of `x^(2*t) - S^2`. -/
theorem blockValue_ctStage :
    blockValue e (ctStage e (2 ^ l) (2 ^ s) a) (2 ^ s) x = blockValue e a (2 * 2 ^ s) x := by
  rw [blockValue_two_mul, blockValue]
  refine Finset.sum_congr rfl fun r hrt => congrArg (· * _) ?_
  obtain ⟨hfst, hsnd⟩ := Prod.mk.inj
    (nth_ctStage e (hlen.trans (dim_eq_of_stage hL)) (group_lt hL hx) (Finset.mem_range.1 hrt))
  rw [designatedRoot_pow he hr hL hx, ← natCast_romf]
  obtain ⟨hbit, hidx⟩ | ⟨hbit, hidx⟩ := half_cases (2 ^ s) x
  · rw [hbit, hidx, hfst, natCast_addMod, natCast_reduce, Nat.cast_mul, pow_zero, one_mul]
  · rw [hbit, hidx, hsnd, natCast_subMod (entry_q_pos he), natCast_reduce, Nat.cast_mul]
    ring

/-- A GS stage joins the polynomials of two blocks into twice the one they are the residues of. -/
theorem blockValue_gsStage :
    blockValue e (gsStage e (2 ^ l) (2 ^ s) a) (2 * 2 ^ s) x = 2 * blockValue e a (2 ^ s) x := by
  have hinv := psi_pow_mul_natCast_romi he hr (brv e.log2dim (2 ^ l + x / 2 ^ s / 2))
  rw [blockValue_two_mul, blockValue, Finset.mul_sum]
  refine Finset.sum_congr rfl fun r hrt => ?_
  rw [← mul_assoc]
  refine congrArg (· * _) ?_
  obtain ⟨hfst, hsnd⟩ := Prod.mk.inj
    (nth_gsStage e (hlen.trans (dim_eq_of_stage hL)) (group_lt hL hx) (Finset.mem_range.1 hrt))
  rw [hfst, hsnd, designatedRoot_pow he hr hL hx, natCast_addMod, natCast_reduce, Nat.cast_mul,
    natCast_subMod (entry_q_pos he)]
  obtain ⟨hbit, hidx⟩ | ⟨hbit, hidx⟩ := half_cases (2 ^ s) x
  · rw [hbit, hidx]
    linear_combination
      (nth a (2 * (x / 2 ^ s / 2) * 2 ^ s + r) - nth a (2 * (x / 2 ^ s / 2) * 2 ^ s + r + 2 ^ s) : ZMod e.q) * hinv
  · rw [hbit, hidx]
    linear_combination
      (nth a (2 * (x / 2 ^ s / 2) * 2 ^ s + r + 2 ^ s) - nth a (2 * (x / 2 ^ s / 2) * 2 ^ s + r) : ZMod e.q) * hinv

end

/-- The last pass of R192 scales every element. -/
theorem nth_nttInverse (e : Entry) (a : List Nat) (j : Nat) :
    nth (nttInverse e a) j = e.reduce (nth (gsStages e e.log2dim e.dim 1 a) j * e.dinv) := by
  have hzero : 0 = e.reduce (0 * e.dinv) := by rw [Nat.zero_mul, Entry.reduce, Nat.zero_mod]
  rw [nttInverse, nth, nth]
  conv_lhs => rw [hzero]
  exact List.getD_map _ _ _

section
variable {k : Nat} {e : Entry} (he : entry? k = some e) (hr : e.nttOk = true) {x : Nat} (hx : x < e.dim)
include he hr hx

/-- The values at the roots are kept through the CT stages. -/
theorem blockValue_ctStages {l j : Nat} (hL : e.log2dim = l + j) {a : List Nat} (ha : canonicalVec e e.dim a) :
    blockValue e (ctStages e l (2 ^ j) (2 ^ l) a) 1 x = blockValue e a (2 ^ l) x := by
  induction l generalizing j a with
  | zero => rfl
  | succ l ih =>
    have hL' : e.log2dim = l + (j + 1) := by omega
    have hhalf : 2 ^ (l + 1) / 2 = 2 ^ l := Nat.pow_div (Nat.le_add_left 1 l) two_pos
    rw [ctStages, ← pow_succ', hhalf, ih hL' (canonicalVec_ctStage (entry_q_pos he) ha _ _), pow_succ',
      blockValue_ctStage hL' hx he hr ha.1]

/-- Each GS stage doubles the values at the roots. -/
theorem blockValue_gsStages {l j : Nat} (hL : e.log2dim = j + l) {a : List Nat} (ha : canonicalVec e e.dim a) :
    blockValue e (gsStages e l (2 ^ l) (2 ^ j) a) e.dim x = 2 ^ l * blockValue e a (2 ^ j) x := by
  induction l generalizing j a with
  | zero =>
    rw [Entry.dim, hL, pow_zero, pow_zero, one_mul]
    rfl
  | succ l ih =>
    have hL' : e.log2dim = (j + 1) + l := by omega
    have hhalf : 2 ^ (l + 1) / 2 = 2 ^ l := Nat.pow_div (Nat.le_add_left 1 l) two_pos
    rw [gsStages, ← pow_succ', hhalf, ih hL' (canonicalVec_gsStage (entry_q_pos he) ha _ _), pow_succ',
      blockValue_gsStage hL hx he hr ha.1]
    ring

/-- NTTF gives the values at the designated roots (R191). -/
theorem nth_nttForward {a : List Nat} (ha : canonicalVec e e.dim a) :
    (nth (nttForward e a) x : ZMod e.q) = valueAt e (nth a) x := by
  rw [← blockValue_one, ← blockValue_dim a hx]
  exact blockValue_ctStages he hr hx (Nat.add_zero _).symm ha

/-- NTTI gives a polynomial whose values at the designated roots are the elements of the vector (R192). -/
theorem valueAt_nttInverse {a : List Nat} (ha : canonicalVec e e.dim a) :
    valueAt e (nth (nttInverse e a)) x = nth a x := by
  have hstages := blockValue_gsStages he hr hx (Nat.zero_add _).symm ha
  rw [pow_zero, blockValue_one, blockValue_dim _ hx] at hstages
  have hdinv : (e.dinv : ZMod e.q) * 2 ^ e.log2dim = 1 := by
    have := congrArg (Nat.cast : Nat → ZMod e.q) (entry_root he hr).2
    rwa [ZMod.natCast_mod, Nat.cast_mul, Entry.dim, Nat.cast_pow, Nat.cast_ofNat, Nat.cast_one] at this
  calc valueAt e (nth (nttInverse e a)) x
      = e.dinv * valueAt e (nth (gsStages e e.log2dim e.dim 1 a)) x := by
        rw [valueAt, valueAt, Finset.mul_sum]
        refine Finset.sum_congr rfl fun j _ => ?_
        rw [nth_nttInverse, natCast_reduce, Nat.cast_mul]
        ring
    _ = nth a x := by rw [Entry.dim, hstages, ← mul_assoc, hdinv, one_mul]

end

/-! ### Interpolation (R193) -/

/-- Canonical values that are congruent are equal. -/
theorem eq_of_natCast_eq {e : Entry} {x y : Nat} (hx : x < e.q) (hy : y < e.q) (h : (x : ZMod e.q) = y) : x = y := by
  rw [eq_mod_of_natCast_eq hx h, Nat.mod_eq_of_lt hy]

theorem evalAt_lt {k : Nat} {e : Entry} (he : entry? k = some e) (p : Nat → Nat) (x : Nat) : evalAt e p x < e.q :=
  Nat.mod_lt _ (entry_q_pos he)

/-- The product of two terms, reduced modulo `x^n + 1`, keeps its value at a root of `x^n + 1`. -/
theorem sum_wrapped_term {R : Type} [CommRing R] {n i j : Nat} (hi : i < n) (hj : j < n) {w : R} (hw : w ^ n = -1)
    (c : R) :
    ∑ r ∈ Finset.range n, (if i + j = r then c else if i + j = r + n then -c else 0) * w ^ r = c * w ^ (i + j) := by
  by_cases hlt : i + j < n
  · rw [Finset.sum_eq_single_of_mem (i + j) (Finset.mem_range.2 hlt), if_pos rfl]
    intro r _ hne
    rw [if_neg hne.symm, if_neg (by omega), zero_mul]
  · have hmem : i + j - n ∈ Finset.range n := Finset.mem_range.2 (by omega)
    have hsplit : i + j = i + j - n + n := by omega
    rw [Finset.sum_eq_single_of_mem _ hmem, if_neg (by omega), if_pos hsplit]
    · conv_rhs => rw [hsplit, pow_add, hw]
      ring
    · intro r hr hne
      have := Finset.mem_range.1 hr
      rw [if_neg (by omega), if_neg (by omega), zero_mul]

theorem negacyclic_lt {k : Nat} {e : Entry} (he : entry? k = some e) (p b : Nat → Nat) (r : Nat) :
    negacyclic e p b r < e.q :=
  (Int.toNat_lt_of_ne_zero (entry_q_pos he).ne').2 (Int.emod_lt_of_pos _ (Int.natCast_pos.2 (entry_q_pos he)))

theorem natCast_negacyclic {k : Nat} {e : Entry} (he : entry? k = some e) (p b : Nat → Nat) (r : Nat) :
    (negacyclic e p b r : ZMod e.q) = ∑ i ∈ Finset.range e.dim, ∑ j ∈ Finset.range e.dim,
      if i + j = r then (p i * b j : ZMod e.q) else if i + j = r + e.dim then -(p i * b j : ZMod e.q) else 0 := by
  have hq : (e.q : Int) ≠ 0 := Int.natCast_ne_zero.2 (entry_q_pos he).ne'
  rw [negacyclic, ← Int.cast_natCast, Int.toNat_of_nonneg (Int.emod_nonneg _ hq), ZMod.intCast_mod]
  push_cast
  rfl

section
variable {k : Nat} {e : Entry} (he : entry? k = some e) (hr : e.nttOk = true)
include he hr

/-- A canonical polynomial is determined by its values at the designated roots. -/
theorem eq_of_evalAt_eq {p p' : Nat → Nat} (hp : ∀ j < e.dim, p j < e.q) (hp' : ∀ j < e.dim, p' j < e.q)
    (h : ∀ i < e.dim, evalAt e p i = evalAt e p' i) {j : Nat} (hj : j < e.dim) : p j = p' j := by
  have : Fact e.q.Prime := ⟨entry_q_prime he⟩
  have hzero : (fun j : Fin e.dim => (p j : ZMod e.q) - p' j) = 0 := by
    apply Matrix.eq_zero_of_forall_index_sum_mul_pow_eq_zero (f := fun i : Fin e.dim => designatedRoot e i)
    · exact fun i i' hii' => Fin.ext (designatedRoot_injOn he hr i.2 i'.2 hii')
    · intro i
      have hi : valueAt e p i = valueAt e p' i := by rw [← natCast_evalAt, ← natCast_evalAt, h i i.2]
      simpa only [sub_mul, Finset.sum_sub_distrib, sub_eq_zero, valueAt, Finset.sum_range] using hi
  exact eq_of_natCast_eq (hp j hj) (hp' j hj) (sub_eq_zero.1 (congrFun hzero ⟨j, hj⟩))

/-- At every designated root the negacyclic product is the product (R193). -/
theorem evalAt_negacyclic (p b : Nat → Nat) (x : Nat) :
    evalAt e (negacyclic e p b) x = evalAt e p x * evalAt e b x % e.q := by
  apply eq_mod_of_natCast_eq (evalAt_lt he _ _)
  rw [Nat.cast_mul, natCast_evalAt, natCast_evalAt, natCast_evalAt]
  calc valueAt e (negacyclic e p b) x
      = ∑ i ∈ Finset.range e.dim, ∑ j ∈ Finset.range e.dim,
          (p i * b j : ZMod e.q) * designatedRoot e x ^ (i + j) := by
        simp only [valueAt, natCast_negacyclic he, Finset.sum_mul]
        rw [Finset.sum_comm]
        refine Finset.sum_congr rfl fun i hi => ?_
        rw [Finset.sum_comm]
        exact Finset.sum_congr rfl fun j hj => sum_wrapped_term (Finset.mem_range.1 hi) (Finset.mem_range.1 hj)
          (designatedRoot_pow_dim he hr x) _
    _ = valueAt e p x * valueAt e b x := by
        rw [valueAt, valueAt, Finset.sum_mul_sum]
        refine Finset.sum_congr rfl fun i _ => Finset.sum_congr rfl fun j _ => ?_
        rw [pow_add]
        ring

end

end Sys2Proof.Machine
end

section
/-! PROOFS of the transform family (44_ntt.md), the machine: what NTTF and NTTI leave in a bank, alone and in
sequence. -/

namespace Sys2Proof.Machine

/-! ### The commands past Precheck (R190, R192) -/

section
variable {k : Nat} {e : Entry} (he : entry? k = some e)
include he

theorem exec_nttf (hr : e.nttOk = true) (d sa : Bank) (s : State) :
    exec (.nttf k d sa) s = completeVector s e d ((lanes e s.mem sa).map (nttForward e)) := by
  rw [exec, execNttf, precheck_root he hr]

theorem exec_ntti (hr : e.nttOk = true) (d sa : Bank) (s : State) :
    exec (.ntti k d sa) s = completeVector s e d ((lanes e s.mem sa).map (nttInverse e)) := by
  rw [exec, execNtti, precheck_root he hr]

/-- The first word of a filled source without a value is one out of range (R11). -/
theorem lanes_outOfRange {m : Memory} {b : Bank} (hf : m.filled e b) (hr : m.outOfRange e b) :
    lanes e m b = .error .range := by
  obtain ⟨hready, -⟩ | ⟨j, hj, -, hn, -⟩ | ⟨-, -, -, -, hl⟩ := lanesFrom_cases he m b e.dim 0
  · simp only [Nat.zero_add] at hready
    exact absurd hready (not_ready_of_outOfRange hr)
  · obtain ⟨w, hw⟩ := hf j hj
    rw [Nat.zero_add] at hn
    cases hw.symm.trans hn
  · exact hl

end

/-! ### Banks that hold a polynomial -/

/-- Words `0 .. DIM_k - 1` of bank `b` are the canonical values `p`. -/
def Memory.holds (m : Memory) (e : Entry) (b : Bank) (p : Nat → Nat) : Prop :=
  ∀ i, i < e.dim → p i < e.q ∧ m.bankWord b i = some (zext64 (p i))

theorem evalAt_congr {e : Entry} {p p' : Nat → Nat} (h : ∀ j, j < e.dim → p j = p' j) (i : Nat) :
    evalAt e p i = evalAt e p' i :=
  congrArg (· % e.q) <| Finset.sum_congr rfl fun j hj => by rw [evalTerm, h j (Finset.mem_range.1 hj), evalTerm]

section
variable {k : Nat} {e : Entry} (he : entry? k = some e)
include he

theorem elem_lt (m : Memory) (b : Bank) (i : Nat) : m.elem e b i < e.q := by
  rw [Memory.elem]
  split
  · exact entry_q_pos he
  · exact Nat.mod_lt _ (entry_q_pos he)

section
variable {m : Memory} {b : Bank} {p : Nat → Nat} (h : m.holds e b p)
include h

theorem ready_of_holds : m.ready e b := fun i hi =>
  ⟨_, (h i hi).2, inRange_of_lt he (zext64_lt he (h i hi).1)⟩

theorem elem_of_holds {i : Nat} (hi : i < e.dim) : m.elem e b i = p i := by
  obtain ⟨hp, hw⟩ := h i hi
  rw [Memory.elem, hw]
  exact zext64_toNat_mod he hp

end

/-- A bank that a vector command does not write stays ready, with its elements. -/
theorem ready_and_elem_of_sameOutside {m m' : Memory} {b d : Bank} (h : m.sameOutside m' d e.dim) (hne : b ≠ d)
    (hr : m.ready e b) : m'.ready e b ∧ ∀ i, i < e.dim → m'.elem e b i = m.elem e b i := by
  have hword : ∀ i, i < e.dim → m'.bankWord b i = m.bankWord b i := fun i hi =>
    bankWord_of_sameOutside h (entry_dim_le he) b i (hi.trans_le (entry_dim_le he)) (.inl hne)
  refine ⟨fun i hi => ?_, fun i hi => ?_⟩
  · rw [hword i hi]
    exact hr i hi
  · rw [Memory.elem, hword i hi, Memory.elem]

/-- A transform of a ready source: it completes, and bank D holds its values on the canonical elements. -/
theorem completeVector_transform {s : State} {sa : Bank} (d : Bank) (hs : s.mem.ready e sa)
    {f : List Nat → List Nat} (hf : ∀ {a}, canonicalVec e e.dim a → canonicalVec e e.dim (f a)) :
    ∃ m : Memory, completeVector s e d ((lanes e s.mem sa).map f) = .next (State.completed { s with mem := m }) ∧
      m.holds e d (nth (f ((List.range e.dim).map (s.mem.elem e sa)))) ∧ s.mem.sameOutside m d e.dim := by
  obtain ⟨hlen, hlt⟩ := hf (canonicalVec_lanes he (lanes_ready he hs))
  obtain ⟨m, hm, hwords, hout⟩ := completeVector_ok s d hlen
  rw [lanes_ready he hs]
  refine ⟨m, hm, fun i hi => ?_, hout⟩
  rw [nth, List.getD_eq_getElem _ _ (hi.trans_eq hlen.symm)]
  exact ⟨hlt _ (List.getElem_mem _), hwords i _⟩

end

theorem nth_map_range (f : Nat → Nat) {n i : Nat} (hi : i < n) : nth ((List.range n).map f) i = f i := by
  rw [nth, List.getD_eq_getElem _ _ (by simpa using hi), List.getElem_map, List.getElem_range]

/-! ### NTTF and NTTI of a ready source -/

section
variable {k : Nat} {e : Entry} (he : entry? k = some e) (hr : e.nttOk = true) {s : State} {sa : Bank} (d : Bank)
  (hs : s.mem.ready e sa)
include he hr hs

/-- NTTF leaves the evaluations of the source (R191). -/
theorem exec_nttf_ready :
    ∃ m : Memory, exec (.nttf k d sa) s = .next (State.completed { s with mem := m }) ∧
      m.holds e d (evalAt e (s.mem.elem e sa)) ∧ s.mem.sameOutside m d e.dim := by
  have hq := entry_q_pos he
  have hsrc := canonicalVec_lanes he (lanes_ready he hs)
  rw [exec_nttf he hr]
  obtain ⟨m, hm, hholds, hout⟩ := completeVector_transform he d hs (canonicalVec_nttForward hq)
  refine ⟨m, hm, fun i hi => ?_, hout⟩
  obtain ⟨hlt, hw⟩ := hholds i hi
  have hval : nth (nttForward e ((List.range e.dim).map (s.mem.elem e sa))) i = evalAt e (s.mem.elem e sa) i := by
    rw [← evalAt_congr (fun j => nth_map_range _)]
    apply eq_of_natCast_eq hlt (evalAt_lt he _ i)
    rw [nth_nttForward he hr hi hsrc, natCast_evalAt]
  exact hval ▸ ⟨hlt, hw⟩

/-- NTTI leaves the canonical polynomial with the source as its evaluations (R192). -/
theorem exec_ntti_ready :
    ∃ (m : Memory) (p : Nat → Nat), exec (.ntti k d sa) s = .next (State.completed { s with mem := m }) ∧
      m.holds e d p ∧ (∀ i, i < e.dim → evalAt e p i = s.mem.elem e sa i) ∧ s.mem.sameOutside m d e.dim := by
  have hq := entry_q_pos he
  have hsrc := canonicalVec_lanes he (lanes_ready he hs)
  rw [exec_ntti he hr]
  obtain ⟨m, hm, hholds, hout⟩ := completeVector_transform he d hs (canonicalVec_nttInverse hq)
  refine ⟨m, _, hm, hholds, fun i hi => ?_, hout⟩
  apply eq_of_natCast_eq (evalAt_lt he _ i) (elem_lt he s.mem sa i)
  rw [natCast_evalAt, valueAt_nttInverse he hr hi hsrc, nth_map_range _ hi]

/-- Where the source holds the evaluations of `p`, NTTI gives `p`. -/
theorem exec_ntti_of_evalAt {p : Nat → Nat} (hp : ∀ j, j < e.dim → p j < e.q)
    (hev : ∀ i, i < e.dim → s.mem.elem e sa i = evalAt e p i) :
    ∃ m : Memory, exec (.ntti k d sa) s = .next (State.completed { s with mem := m }) ∧ m.holds e d p := by
  obtain ⟨m, p', hm, hholds, hev', -⟩ := exec_ntti_ready he hr d hs
  refine ⟨m, hm, fun j hj => ?_⟩
  have heq : p' j = p j := eq_of_evalAt_eq he hr (fun j hj => (hholds j hj).1) hp
    (fun i hi => (hev' i hi).trans (hev i hi)) hj
  exact heq ▸ hholds j hj

end

/-- Settles O36: the values at the designated roots are kept by every CT stage. -/
theorem nttfGivesEvaluations : Obligations.NttfGivesEvaluations := by
  intro k d sa
  refine ⟨fun hk => encodedAs_of_banks (sb := 0) 0x10 hk rfl rfl, fun e s he hr hs => ?_⟩
  obtain ⟨m, hm, hholds, hout⟩ := exec_nttf_ready he hr d hs
  exact ⟨m, hm, fun i hi => (hholds i hi).2, hout⟩

/-- Settles O37: every GS stage doubles the values at the designated roots, and the last pass divides by `DIM_k`. -/
theorem nttiInterpolates : Obligations.NttiInterpolates := by
  intro k d sa
  refine ⟨fun hk => encodedAs_of_banks (sb := 0) 0x11 hk rfl rfl, fun e s he hr hs => ?_⟩
  obtain ⟨m, p, hm, hholds, hev, hout⟩ := exec_ntti_ready he hr d hs
  refine ⟨m, hm, fun j hj => ⟨_, (hholds j hj).2, zext64_lt he (hholds j hj).1⟩, fun i hi => ?_, hout⟩
  rw [evalAt_congr (fun j => elem_of_holds he hholds), hev i hi]

/-- Settles O38: NTTF leaves the evaluations of the source, which determine it. -/
theorem nttRoundTrip : Obligations.NttRoundTrip := by
  intro k e a d d' s he hr ha
  obtain ⟨m₁, h₁, hd, -⟩ := exec_nttf_ready he hr d ha
  obtain ⟨m₂, h₂, hd'⟩ := exec_ntti_of_evalAt (s := State.completed { s with mem := m₁ }) he hr d'
    (ready_of_holds he hd) (fun j _ => elem_lt he s.mem a j) (fun i => elem_of_holds he hd)
  exact ⟨_, _, h₁, h₂, rfl, rfl, rfl, fun j hj => (hd' j hj).2⟩

/-- Settles O39: PWMUL leaves the evaluations of the negacyclic product, which determine it. -/
theorem ringMultiplication : Obligations.RingMultiplication := by
  intro k e a b d s he hr hne ha hb
  obtain ⟨m₁, h₁, ha₁, hout₁⟩ := exec_nttf_ready he hr a ha
  obtain ⟨hb₁, helem₁⟩ := ready_and_elem_of_sameOutside he hout₁ hne.symm hb
  obtain ⟨m₂, h₂, hb₂, hout₂⟩ := exec_nttf_ready (s := State.completed { s with mem := m₁ }) he hr b hb₁
  obtain ⟨ha₂, helem₂⟩ := ready_and_elem_of_sameOutside he hout₂ hne (ready_of_holds he ha₁)
  obtain ⟨m₃, h₃, hd₃, -⟩ := (pwmulGivesLaneProducts k d a b).2 e (State.completed { s with mem := m₂ }) he ha₂
    (ready_of_holds he hb₂)
  have hprod : m₃.holds e d (evalAt e (negacyclic e (s.mem.elem e a) (s.mem.elem e b))) := fun i hi => by
    refine ⟨evalAt_lt he _ i, ?_⟩
    have hea : m₂.elem e a i = evalAt e (s.mem.elem e a) i := (helem₂ i hi).trans (elem_of_holds he ha₁ hi)
    have heb : m₂.elem e b i = evalAt e (s.mem.elem e b) i := (elem_of_holds he hb₂ hi).trans (evalAt_congr helem₁ i)
    rw [evalAt_negacyclic he hr, ← hea, ← heb]
    exact hd₃ i hi
  obtain ⟨m₄, h₄, hd₄⟩ := exec_ntti_of_evalAt (s := State.completed { s with mem := m₃ }) he hr d
    (ready_of_holds he hprod) (fun j _ => negacyclic_lt he _ _ j) (fun i => elem_of_holds he hprod)
  exact ⟨_, _, _, _, h₁, h₂, h₃, h₄, rfl, rfl, rfl, fun r hr => (hd₄ r hr).2⟩

/-- Settles O40: the read of the source stops for the range of a word. -/
theorem nttOutOfRangeLeavesDestinationUninit : Obligations.NttOutOfRangeLeavesDestinationUninit := by
  intro k e d sa s i hi he hr hf hout
  obtain rfl | rfl := hi
  · rw [exec_nttf he hr, lanes_outOfRange he hf hout]
    exact completeVector_range s e d
  · rw [exec_ntti he hr, lanes_outOfRange he hf hout]
    exact completeVector_range s e d

end Sys2Proof.Machine
end

section
/-! PROOFS of the exceptions family (60_exceptions.md): acceptance and the writes dropped while BUSY, the core's turn, that
no step is stuck, the error flag, and where UNINIT_READ is recorded and what it leaves. -/

namespace Sys2Proof.Machine

/-! ### Acceptance and the writes dropped while BUSY (R215, R219, R220) -/

/-- Settles O14: while IDLE the write of CMD is not dropped. -/
theorem cmdWriteWhileIdleIsAccepted : Obligations.CmdWriteWhileIdleIsAccepted := by
  intro s v hp
  rw [State.hostStep, hostWrite_cmd, writeCmd_idle hp]
  rfl

/-- Settles O15: while BUSY the write of CMD is dropped. -/
theorem cmdWriteWhileBusyOnlyLogs : Obligations.CmdWriteWhileBusyOnlyLogs := by
  intro s c v hp
  rw [State.hostStep, hostWrite_cmd, writeCmd_busy (busy_eq_true.2 ⟨c, hp⟩)]
  rfl

/-- Settles O16: each of the four kinds of address selects an operand, and its write is dropped. -/
theorem operandWriteWhileBusyOnlyLogs : Obligations.OperandWriteWhileBusyOnlyLogs := by
  intro s c v a hp ha
  have drop : ∀ t, (s.writeOperand t).writeOk = { s.logged .hostBusy with resp := some ⟨false, none⟩ } := fun t => by
    rw [writeOperand_busy (busy_eq_true.2 ⟨c, hp⟩)]
    rfl
  rw [State.hostStep]
  obtain rfl | rfl | rfl | ⟨b, i, hi, rfl⟩ := ha
  · rw [hostWrite_opa, drop]
  · rw [hostWrite_opb, drop]
  · rw [hostWrite_opt, drop]
  · rw [← bankAddr_eq, hostWrite_bank s v b i hi, drop]

/-! ### What a vector command reads (R140, R190, R192, R232) -/

/-- The destination vector of NTTF, NTTI or PWMUL, or what its source words lack; no other command has one. -/
def destVector (e : Entry) (m : Memory) : Instr → Except LaneStop (List Nat)
  | .nttf _ _ sa => (lanes e m sa).map (nttForward e)
  | .ntti _ _ sa => (lanes e m sa).map (nttInverse e)
  | .pwmul _ _ sa sb => (lanePairs e m sa sb).map (pointwise e)
  | _ => .ok []

/-- What the read of the source banks `bs` says of their words: all are ready, or one is the cause of the stop. -/
inductive SourceRead (m : Memory) (e : Entry) (bs : List Bank) {α : Type} : Except LaneStop α → Prop
  /-- Every source word has a value. -/
  | ok (v : α) (h : ∀ b ∈ bs, m.ready e b) : SourceRead m e bs (.ok v)
  /-- A source word is UNINIT. -/
  | uninit (b : Bank) (j : Nat) (hb : b ∈ bs) (hj : j < e.dim) (hn : m.bankWord b j = none) :
      SourceRead m e bs (.error .uninit)
  /-- A source word is out of range. -/
  | range (b : Bank) (hb : b ∈ bs) (ho : m.outOfRange e b) : SourceRead m e bs (.error .range)

theorem SourceRead.map {m : Memory} {e : Entry} {bs : List Bank} {α β : Type} {r : Except LaneStop α}
    (h : SourceRead m e bs r) (f : α → β) : SourceRead m e bs (r.map f) := by
  cases h with
  | ok v h => exact .ok _ h
  | uninit b j hb hj hn => exact .uninit b j hb hj hn
  | range b hb ho => exact .range b hb ho

section
variable {k : Nat} {e : Entry} (he : entry? k = some e) (m : Memory)
include he

/-- A lane that stops has its cause in its own word. -/
theorem sourceRead_of_lane_error {α : Type} {bs : List Bank} {b : Bank} {j : Nat} (hb : b ∈ bs) (hj : j < e.dim)
    {x : LaneStop} (hx : lane e m b j = .error x) : SourceRead m e bs (.error x : Except LaneStop α) := by
  obtain ⟨-, hl⟩ | ⟨hn, hl⟩ | ⟨⟨w, hw, hr⟩, hl⟩ := lane_cases he m b j <;> cases hx.symm.trans hl
  · exact .uninit b j hb hj hn
  · exact .range b hb ⟨j, w, hj, hw, hr⟩

theorem sourceRead_lanes (sa : Bank) : SourceRead m e [sa] (lanes e m sa) := by
  unfold lanes
  obtain ⟨hr, hl⟩ | ⟨j, hj, -, hn, hl⟩ | ⟨j, hj, -, ⟨w, hw, ho⟩, hl⟩ := lanesFrom_cases he m sa e.dim 0 <;>
    rw [hl] <;> simp only [Nat.zero_add] at *
  · exact .ok _ (List.forall_mem_singleton.2 hr)
  · exact .uninit sa j (List.mem_singleton_self sa) hj hn
  · exact .range sa (List.mem_singleton_self sa) ⟨j, w, hj, hw, ho⟩

theorem sourceRead_lanePairs (sa sb : Bank) : SourceRead m e [sa, sb] (lanePairs e m sa sb) := by
  unfold lanePairs
  obtain ⟨hr, hl⟩ | ⟨j, x, hj, -, hx, hl⟩ := lanePairsFrom_cases he m sa sb e.dim 0 <;>
    rw [hl] <;> simp only [Nat.zero_add] at *
  · exact .ok _ (by simpa using ⟨fun j hj => (hr j hj).1, fun j hj => (hr j hj).2⟩)
  · obtain hx | ⟨-, hx⟩ := hx
    · exact sourceRead_of_lane_error he m (by simp) hj hx
    · exact sourceRead_of_lane_error he m (by simp) hj hx

/-- The read of a vector command is that of its source banks. -/
theorem sourceRead_destVector (i : Instr) (hv : i.isVector = true) : SourceRead m e i.sources (destVector e m i) := by
  cases i <;> cases hv
  case nttf d sa | ntti d sa => exact (sourceRead_lanes he m sa).map _
  case pwmul d sa sb => exact (sourceRead_lanePairs he m sa sb).map _

end

/-! ### The completion of a vector command (R96, R216) -/

/-- Without an index, an entry passes Precheck with the root that the command needs (R96). -/
theorem precheck_of_root {needsRoot : Bool} {k : Nat} {e : Entry} (he : entry? k = some e)
    (hr : needsRoot = true → e.nttOk = true) : precheck needsRoot none k = .ok e := by
  cases needsRoot with
  | false => exact precheck_plain he
  | true => exact precheck_root he (hr rfl)

section
variable {i : Instr} {k : Nat} {d : Bank} (hd : vectorDest i = some (k, d))
include hd

theorem isVector_of_vectorDest : i.isVector = true := by
  cases i <;> cases hd <;> rfl

theorem idx?_of_vectorDest : i.idx? = none := by
  cases i <;> cases hd <;> rfl

/-- Past Precheck a vector command completes with its destination vector. -/
theorem exec_of_precheck_ok {e : Entry} (s : State) (hp : precheck i.needsRoot none k = .ok e) :
    exec i s = completeVector s e d (destVector e s.mem i) := by
  cases i <;> cases hd
  case nttf sa | ntti sa =>
    have hp : precheck true none k = .ok e := hp
    simp only [exec, execNttf, execNtti, hp, destVector]
  case pwmul sa sb =>
    have hp : precheck false none k = .ok e := hp
    simp only [exec, execPwmul, hp, destVector]

/-- A vector command takes a Precheck error, or has an entry and completes with its destination vector. -/
theorem exec_vector_cases (s : State) :
    (∃ x, exec i s = .next (s.afterError x)) ∨
      ∃ e, entry? k = some e ∧ exec i s = completeVector s e d (destVector e s.mem i) := by
  cases hp : precheck i.needsRoot none k with
  | error x => exact .inl ⟨x, exec_of_precheck_error (cfg?_of_vectorDest hd) (idx?_of_vectorDest hd ▸ hp)⟩
  | ok e => exact .inr ⟨e, precheck_ok hp, exec_of_precheck_ok hd s hp⟩

theorem exec_vector_next (s : State) : ∃ t, exec i s = .next t := by
  obtain ⟨x, h⟩ | ⟨e, -, h⟩ := exec_vector_cases hd s
  · exact ⟨_, h⟩
  · exact h ▸ (completeVector_next s e d _).imp fun _ h => h.1

end

/-! ### The core's turn (R210, R216) -/

/-- Every command completes: its completion, scalar or vector, has a next state for every result. -/
theorem exec_next (i : Instr) (s : State) : ∃ t, exec i s = .next t := by
  cases i with
  | nop => exact ⟨_, completeScalar_ok s s⟩
  | modmul | modred | modadd | modsub | bflyct | bflygs | twrf | twri | dinv =>
    exact (completeScalar_next s _).imp fun _ h => h.1
  | nttf | ntti | pwmul => exact exec_vector_next rfl s

theorem completeCmd_next (s : State) (c : Word) : ∃ t, completeCmd s c = .next t := by
  unfold completeCmd
  split
  · exact exec_next _ s
  · exact ⟨_, rfl⟩

theorem coreStep_next (s : State) : ∃ t, coreStep s = .next t := by
  cases hp : s.phase with
  | idle => exact ⟨s, coreStep_idle hp⟩
  | busy c => exact coreStep_busy hp ▸ completeCmd_next s c

/-- Settles O11: the core's turn, and the command that Decode gives. -/
theorem stepRunsDecodedCommand : Obligations.StepRunsDecodedCommand := by
  intro s c i hp ht hi
  rw [step_eq, ht, takeTurn, coreStep_busy (s := s.dequeue) hp, completeCmd, hi]

/-- Settles O13: the core's turn completes whatever command runs, and the other turns have no way to stop. -/
theorem everyStepReachesNextState : Obligations.EveryStepReachesNextState := by
  intro s
  rw [step_eq]
  cases s.turn with
  | core => exact coreStep_next _
  | host | powerOn => exact ⟨_, rfl⟩

/-! ### The error flag (R218, R223) -/

/-- A host access that is neither a soft reset nor an acknowledgement keeps ERR and the first ERR_CODE. -/
theorem access_err {s t : State} {op : HostOp} (h : Access s op t) (herr : s.err = true)
    (hr : op.isSoftReset = false) (hack : op.acksBit 2 = false) : t.err = true ∧ t.errCode = s.errCode := by
  cases h with
  | quiet | enables | accept | operand | bank => exact ⟨herr, rfl⟩
  | dropped => exact ⟨rfl, if_pos herr⟩
  | softReset d e hs => cases hr.symm.trans hs
  | status v hv =>
    rw [writeStatus_eq, ← hv 2, hack]
    exact ⟨by simp [herr], rfl⟩

/-- Settles O47: a completion can only log a further error, and the resets are excluded. -/
theorem errIsStickyUntilAcknowledged : Obligations.ErrIsStickyUntilAcknowledged := by
  intro s t h herr hr hack
  cases step_transition h with
  | idle => exact ⟨herr, rfl⟩
  | complete i t ht hb hc =>
    obtain ⟨he, -, hcode⟩ | ⟨-, -, he, -, hcode⟩ := completion_log hc
    · exact ⟨he.trans herr, hcode⟩
    · exact ⟨he, hcode herr⟩
  | host op t ht ha =>
    rw [ht] at hr
    exact access_err (s := s.dequeue) ha herr hr (hack op ht)
  | powerOn ht =>
    rw [ht] at hr
    cases hr

/-! ### UNINIT_READ (R232) -/

/-- A completion leaves the recorded fault, or a vector command records it. -/
theorem completion_uninitRead {i : Instr} {s t : State} (h : Completion i s t) :
    t.uninitRead = s.uninitRead ∨ (t.uninitRead = true ∧ ∃ k d, vectorDest i = some (k, d)) := by
  cases h with
  | scalar | error | vector | range => exact .inl rfl
  | uninit k e d hd => exact .inr ⟨uninitOutcome_uninitRead s d e.dim, k, d, hd⟩

/-- No host access reaches the recorded fault. -/
theorem access_uninitRead {s t : State} {op : HostOp} (h : Access s op t) : t.uninitRead = s.uninitRead := by
  cases h with
  | status v => rw [writeStatus_eq]; rfl
  | _ => rfl

/-- Settles O50: only a completion changes the recorded fault, and it does so by recording it. -/
theorem recordedFaultIsNeverCleared : Obligations.RecordedFaultIsNeverCleared := by
  intro s t h hu
  cases step_transition h with
  | idle | powerOn => exact hu
  | complete i t ht hb hc =>
    obtain hs | ⟨ht, -⟩ := completion_uninitRead hc
    · exact hs.trans hu
    · exact ht
  | host op t ht ha => exact (access_uninitRead ha).trans hu

/-- A vector completion records the fault only where an UNINIT word stopped the read. -/
theorem completeVector_uninitRead {s t : State} {e : Entry} {d : Bank} {r : Except LaneStop (List Nat)}
    (h : completeVector s e d r = .next t) : t.uninitRead = s.uninitRead ∨ r = .error .uninit := by
  obtain ⟨t', ht', ⟨vs, -, rfl⟩ | ⟨-, rfl⟩ | ⟨hr, -⟩⟩ := completeVector_next s e d r <;> rw [h] at ht' <;> cases ht'
  · exact .inl rfl
  · exact .inl rfl
  · exact .inr hr

/-- Settles O43: a vector command records the fault, past Precheck, and its read has an UNINIT source word as its cause. -/
theorem uninitFaultOnlyFromUninitSource : Obligations.UninitFaultOnlyFromUninitSource := by
  intro i s t h hs ht
  have recorded : t.uninitRead ≠ s.uninitRead := by simp [hs, ht]
  obtain ⟨-, k, d, hd⟩ := (completion_uninitRead (exec_completion h)).resolve_left recorded
  obtain ⟨x, hx⟩ | ⟨e, he, hx⟩ := exec_vector_cases hd s
  · cases h.symm.trans hx
    exact absurd rfl recorded
  · have hstop := (completeVector_uninitRead (hx.symm.trans h)).resolve_left recorded
    have hread := sourceRead_destVector he s.mem i (isVector_of_vectorDest hd)
    rw [hstop] at hread
    cases hread with
    | uninit b j hb hj hn => exact ⟨k, e, b, j, cfg?_of_vectorDest hd, he, hb, hj, hn⟩

/-- Settles O42: the read of the sources stops for an UNINIT word or for one out of range, and each stop has its outcome. -/
theorem uninitSourceRecordsFaultAndCompletes : Obligations.UninitSourceRecordsFaultAndCompletes := by
  rintro k e d sa sb s i hi he hroot ⟨b, j, hb, hj, hn⟩
  have hd : vectorDest i = some (k, d) := by obtain rfl | rfl | rfl := hi <;> rfl
  rw [exec_of_precheck_ok hd s (precheck_of_root he hroot)]
  generalize hr : destVector e s.mem i = r
  cases hr ▸ sourceRead_destVector he s.mem i (isVector_of_vectorDest hd) with
  | ok vs hready =>
    obtain ⟨w, hw, -⟩ := hready b hb j hj
    cases hw.symm.trans hn
  | uninit =>
    have hout := sameOutside_setBank s.mem d (freeWords (s.free + 1) e.dim)
    rw [freeWords_length] at hout
    exact ⟨_, _, hout, (uninitOutcome_cases s d e.dim).imp (congrArg _) fun h => .inl (congrArg _ h)⟩
  | range b' hb' ho =>
    obtain ⟨m, hm, hnone, hout⟩ := completeVector_range s e d
    exact ⟨m, s.free, hout, .inr (.inr ⟨⟨b', hb', ho⟩, hnone, hm⟩)⟩

end Sys2Proof.Machine
end

section
/-! PROOFS of the reset family (70_reset_and_hazards.md): power-on reset, the soft reset with what it does to the banks, and
the progress of an accepted command. -/

namespace Sys2Proof.Machine

/-! ### Power-on reset (R240) -/

/-- Settles O3: the step is power-on reset of the state without its first turn. -/
theorem powerOnResetsAllHardwareState : Obligations.PowerOnResetsAllHardwareState := by
  intro s rest h
  rw [step_eq, State.turn, State.dequeue, h]
  rfl

/-! ### The soft reset (R241) -/

/-- The commands with a destination bank are NTTF, NTTI and PWMUL. -/
theorem vectorDest_eq_some_iff {i : Instr} {k : Nat} {d : Bank} :
    vectorDest i = some (k, d) ↔ ∃ sa sb, i = .nttf k d sa ∨ i = .ntti k d sa ∨ i = .pwmul k d sa sb := by
  constructor
  · intro h
    cases i <;> cases h
    case mp.nttf sa => exact ⟨sa, 0, .inl rfl⟩
    case mp.ntti sa => exact ⟨sa, 0, .inr (.inl rfl)⟩
    case mp.pwmul sa sb => exact ⟨sa, sb, .inr (.inr rfl)⟩
  · rintro ⟨sa, sb, rfl | rfl | rfl⟩ <;> rfl

/-- Only the numbers from `NCFG` on have no entry (R10). -/
theorem le_of_entry_none {k : Nat} (h : entry? k = none) : 4 ≤ k := by
  by_contra hk
  obtain ⟨e, he⟩ := entry_some (Nat.lt_of_not_le hk)
  cases h.symm.trans he

/-- An abort has a destination where the word decodes to a vector command with an entry, and only there. -/
theorem abortDest_cases (c : Word) :
    (∃ i k d e, decode c = .ok i ∧ vectorDest i = some (k, d) ∧ entry? k = some e ∧ abortDest c = some (d, e.dim)) ∨
      ((∀ i k d, decode c = .ok i → vectorDest i = some (k, d) → 4 ≤ k) ∧ abortDest c = none) := by
  unfold abortDest
  cases hc : decode c with
  | error x => exact .inr ⟨nofun, rfl⟩
  | ok i =>
    cases hd : vectorDest i with
    | none =>
      refine .inr ⟨fun i' k d hi hd' => ?_, by simp only [hd]⟩
      cases hi
      cases hd.symm.trans hd'
    | some p =>
      obtain ⟨k, d⟩ := p
      cases he : entry? k with
      | some e => exact .inl ⟨i, k, d, e, rfl, hd, he, by simp only [hd, he]⟩
      | none =>
        refine .inr ⟨fun i' k' d' hi hd' => ?_, by simp only [hd, he]⟩
        cases hi
        cases hd.symm.trans hd'
        exact le_of_entry_none he

/-- The banks after an abort: the destination of the running command is UNINIT, or nothing has changed. -/
theorem abortMem_cases (s : State) :
    (∃ c i k d e, s.phase = .busy c ∧ decode c = .ok i ∧ vectorDest i = some (k, d) ∧ entry? k = some e ∧
        s.abortMem = s.mem.uninitBank d e.dim) ∨
      ((∀ c i k d, s.phase = .busy c → decode c = .ok i → vectorDest i = some (k, d) → 4 ≤ k) ∧
        s.abortMem = s.mem) := by
  unfold State.abortMem
  cases hp : s.phase with
  | idle => exact .inr ⟨nofun, rfl⟩
  | busy c =>
    obtain ⟨i, k, d, e, hc, hd, he, ha⟩ | ⟨habsent, ha⟩ := abortDest_cases c
    · exact .inl ⟨c, i, k, d, e, rfl, hc, hd, he, by simp only [ha]⟩
    · refine .inr ⟨fun c' i k d hp' => ?_, by simp only [ha]⟩
      cases hp'
      exact habsent i k d

/-- Settles O4: the write is one record, and its banks are those after the abort. -/
theorem softResetAbortsAndClears : Obligations.SoftResetAbortsAndClears := by
  intro s v hv
  refine ⟨s.abortMem, ?_, ?_⟩
  · rw [State.hostStep, hostWrite_ctrl, writeCtrl_softReset s hv]
    rfl
  · obtain ⟨c, i, k, d, e, hp, hc, hd, he, hm⟩ | ⟨habsent, hm⟩ := abortMem_cases s <;> rw [hm]
    · obtain ⟨sa, sb, hi⟩ := vectorDest_eq_some_iff.1 hd
      exact .inl ⟨c, i, k, d, sa, sb, e, hp, hc, hi, he, bankWord_uninitBank s.mem d e.dim,
        sameOutside_uninitBank s.mem d e.dim⟩
    · exact .inr ⟨fun c i k d sa sb hp hc hi => habsent c i k d hp hc (vectorDest_eq_some_iff.2 ⟨sa, sb, hi⟩), rfl⟩

/-! ### Progress (R255) -/

/-- No host access reaches the turns still to come. -/
theorem access_agenda {s t : State} {op : HostOp} (h : Access s op t) : t.agenda = s.agenda := by
  cases h with
  | status v => rw [writeStatus_eq]; rfl
  | _ => rfl

/-- While BUSY, a step that is no reset completes the command or uses up a pending turn. -/
theorem step_progress {s t : State} (hb : s.busy = true) (hr : s.turn.isReset = false) (h : step s = .next t) :
    (t.phase = .idle ∧ t.done = true) ∨ (t.busy = true ∧ ∃ u, s.agenda = u :: t.agenda) := by
  cases step_transition h with
  | idle _ hp => cases hb.symm.trans (busy_eq_false.2 hp)
  | complete i t _ _ hc => exact .inl (completion_done hc).symm
  | host op t ht ha =>
    have hop : op.isSoftReset = false := by rwa [ht] at hr
    right
    constructor
    · obtain hs | ⟨-, hs⟩ | ⟨hs, -⟩ := access_busy ha
      · exact hs.trans hb
      · cases hop.symm.trans hs
      · exact hs
    · rw [access_agenda ha, dequeue_agenda]
      unfold State.turn at ht
      cases hs : s.agenda with
      | nil => rw [hs] at ht; cases ht
      | cons u rest => exact ⟨u, rfl⟩
  | powerOn ht => rw [ht] at hr; cases hr

/-- The first of `n + 1` steps of a run. -/
theorem run_succ_of_step {s t : State} (h : step s = .next t) (n : Nat) : core.run (n + 1) s = core.run n t := by
  have hs : core.step s = .next t := h
  simp only [Host.Core.run, hs]

/-- Where no pending turn is a reset, the next turn is none. -/
theorem turn_isReset_eq_false {s : State} (h : ∀ t ∈ s.agenda, t.isReset = false) : s.turn.isReset = false := by
  unfold State.turn
  cases hs : s.agenda with
  | nil => rfl
  | cons u rest => exact h u (by simp [hs])

/-- Settles O18, by induction on the agenda: each step completes the command or leaves one turn less. -/
theorem acceptedCommandCompletes : Obligations.AcceptedCommandCompletes := by
  intro s hb hr
  induction hs : s.agenda generalizing s with
  | nil =>
    obtain ⟨t, h⟩ := everyStepReachesNextState s
    obtain ⟨hp, hd⟩ | ⟨-, u, hu⟩ := step_progress hb (turn_isReset_eq_false hr) h
    · exact ⟨1, t, Nat.le_refl 1, run_succ_of_step h 0, hp, hd⟩
    · cases hs.symm.trans hu
  | cons u rest ih =>
    obtain ⟨t, h⟩ := everyStepReachesNextState s
    obtain ⟨hp, hd⟩ | ⟨hbt, u', hu⟩ := step_progress hb (turn_isReset_eq_false hr) h
    · exact ⟨1, t, by simp, run_succ_of_step h 0, hp, hd⟩
    · cases hs.symm.trans hu
      obtain ⟨n, t', hn, hrun, hdone⟩ := ih t hbt (fun x hx => hr x (by simp [hs, hx])) rfl
      exact ⟨n + 1, t', Nat.succ_le_succ hn, (run_succ_of_step h n).trans hrun, hdone⟩

end Sys2Proof.Machine
end
